-- ==== Sys2Proof/Word.lean ====
section
/-! DEFINITION. The widths of the machine's words (R5, R6, R8): every value is unsigned. -/

namespace Sys2Proof

/-- A byte: a general register (R11) or one cell of memory (R13). -/
abbrev Byte := BitVec 8

/-- 16 bits: an instruction word (R50), `pc` (R14) or one stack entry (R16). -/
abbrev Word := BitVec 16

/-- The 12-bit immediate address `nnn` (R51, R53). -/
abbrev Addr := BitVec 12

/-- A register index: a 4-bit field, so always 0 to 15 (R11, R53). -/
abbrev RegIx := Fin 16

end Sys2Proof
end

