-- ==== Sys2Proof/Syntax.lean ====
section
/-! DEFINITION. The instructions of R55, one constructor a row of the opcode map, in the table's order, named by the
operation descriptors of R57. The 21st descriptor, `Unknown(w)`, is no instruction; it is a result of the decoder
(Decode.lean). Every field has the width R57 gives it. -/

namespace Sys2Proof

/-- An instruction (R55, R57). -/
inductive Instr where
  /-- `0000` HALT (R78). -/
  | halt
  /-- `00EE` RET (R90). -/
  | ret
  /-- `1nnn` JP nnn (R91). -/
  | jp (nnn : Addr)
  /-- `Bnnn` JP V0, nnn (R92). -/
  | jpV0 (nnn : Addr)
  /-- `2nnn` CALL nnn (R93). -/
  | call (nnn : Addr)
  /-- `3xkk` SE Vx, kk (R100). -/
  | seImm (x : RegIx) (kk : Byte)
  /-- `4xkk` SNE Vx, kk (R101). -/
  | sneImm (x : RegIx) (kk : Byte)
  /-- `5xy0` SE Vx, Vy (R102). -/
  | seReg (x y : RegIx)
  /-- `9xy0` SNE Vx, Vy (R103). -/
  | sneReg (x y : RegIx)
  /-- `6xkk` LD Vx, kk (R110). -/
  | ldImm (x : RegIx) (kk : Byte)
  /-- `7xkk` ADD Vx, kk (R111). -/
  | addImm (x : RegIx) (kk : Byte)
  /-- `8xy0` LD Vx, Vy (R121). -/
  | ldReg (x y : RegIx)
  /-- `8xy1` OR Vx, Vy (R122). -/
  | or (x y : RegIx)
  /-- `8xy2` AND Vx, Vy (R123). -/
  | and (x y : RegIx)
  /-- `8xy3` XOR Vx, Vy (R124). -/
  | xor (x y : RegIx)
  /-- `8xy4` ADD Vx, Vy (R125). -/
  | addReg (x y : RegIx)
  /-- `8xy5` SUB Vx, Vy (R126). -/
  | sub (x y : RegIx)
  /-- `8xy6` SHR Vx; `y` is decoded and ignored (R127, R58). -/
  | shr (x y : RegIx)
  /-- `8xy7` SUBN Vx, Vy (R128). -/
  | subn (x y : RegIx)
  /-- `8xyE` SHL Vx; `y` is decoded and ignored (R129, R58). -/
  | shl (x y : RegIx)
deriving DecidableEq, Repr

end Sys2Proof
end

