-- ==== Sys2Proof/WellFormed.lean ====
section
/-! DEFINITION. Well-formedness. A term of `Instr` cannot be ill formed: its fields have exactly the widths of the encoding
(R53: indices are in range "by construction"). What can be ill formed is an instruction as it is WRITTEN (R60), where an
operand is a register or a plain number of any size: `Written`. The check is `Written.instr?`, which answers the instruction
a written form stands for and nothing for a form R60 does not have or an operand outside its range.
DESIGN CHOICE (the spec's own decisions D17, D25; log 23), safe: notation only. -/

namespace Sys2Proof

/-- The fifteen spellings of R60. SE, SNE, LD, ADD and JP each cover two rows of the opcode map. -/
inductive Spelling where
  | halt | ret | jp | call | se | sne | ld | add | or | and | xor | sub | shr | subn | shl
deriving DecidableEq, Repr

/-- A written operand: register `Vn`, or a number (R60). -/
inductive Operand where
  | reg (n : Nat)
  | num (n : Nat)
deriving DecidableEq, Repr

/-- An instruction as it is written: a spelling and its operands, destination first (R60). -/
structure Written where
  name : Spelling
  operands : List Operand
deriving DecidableEq, Repr

/-- A register index must be 0 to 15 (R7, R11). -/
def regOperand? (n : Nat) : Option RegIx :=
  if h : n < 16 then some ⟨n, h⟩ else none

/-- `kk` must fit 8 bits (R51). -/
def byteOperand? (n : Nat) : Option Byte :=
  if n < 256 then some (BitVec.ofNat 8 n) else none

/-- `nnn` must fit 12 bits (R51). -/
def addrOperand? (n : Nat) : Option Addr :=
  if n < 4096 then some (BitVec.ofNat 12 n) else none

/-- The pair of a register and a byte. -/
def regByte? (f : RegIx → Byte → Instr) (x kk : Nat) : Option Instr :=
  (regOperand? x).bind fun x => (byteOperand? kk).map (f x)

/-- The pair of two registers. -/
def regReg? (f : RegIx → RegIx → Instr) (x y : Nat) : Option Instr :=
  (regOperand? x).bind fun x => (regOperand? y).map (f x)

/-- The instruction a written form stands for (R60): the operand kinds tell the two rows of one spelling apart, and
`SHR Vx` and `SHL Vx` assemble with `y = 0`. Nothing for any other form. -/
def Written.instr? : Written → Option Instr
  | ⟨.halt, []⟩ => some .halt
  | ⟨.ret, []⟩ => some .ret
  | ⟨.jp, [.num n]⟩ => (addrOperand? n).map .jp
  | ⟨.jp, [.reg 0, .num n]⟩ => (addrOperand? n).map .jpV0
  | ⟨.call, [.num n]⟩ => (addrOperand? n).map .call
  | ⟨.se, [.reg x, .num k]⟩ => regByte? .seImm x k
  | ⟨.sne, [.reg x, .num k]⟩ => regByte? .sneImm x k
  | ⟨.se, [.reg x, .reg y]⟩ => regReg? .seReg x y
  | ⟨.sne, [.reg x, .reg y]⟩ => regReg? .sneReg x y
  | ⟨.ld, [.reg x, .num k]⟩ => regByte? .ldImm x k
  | ⟨.add, [.reg x, .num k]⟩ => regByte? .addImm x k
  | ⟨.ld, [.reg x, .reg y]⟩ => regReg? .ldReg x y
  | ⟨.or, [.reg x, .reg y]⟩ => regReg? .or x y
  | ⟨.and, [.reg x, .reg y]⟩ => regReg? .and x y
  | ⟨.xor, [.reg x, .reg y]⟩ => regReg? .xor x y
  | ⟨.add, [.reg x, .reg y]⟩ => regReg? .addReg x y
  | ⟨.sub, [.reg x, .reg y]⟩ => regReg? .sub x y
  | ⟨.shr, [.reg x]⟩ => regReg? .shr x 0
  | ⟨.subn, [.reg x, .reg y]⟩ => regReg? .subn x y
  | ⟨.shl, [.reg x]⟩ => regReg? .shl x 0
  | _ => none

/-- A written form is well formed when it stands for an instruction. -/
def Written.wellFormed (w : Written) : Bool := w.instr?.isSome

/-- The written form of an instruction (R60). `SHR` and `SHL` are written without `y`, which has no effect (R58). -/
def Instr.written : Instr → Written
  | .halt => ⟨.halt, []⟩
  | .ret => ⟨.ret, []⟩
  | .jp n => ⟨.jp, [.num n.toNat]⟩
  | .jpV0 n => ⟨.jp, [.reg 0, .num n.toNat]⟩
  | .call n => ⟨.call, [.num n.toNat]⟩
  | .seImm x k => ⟨.se, [.reg x, .num k.toNat]⟩
  | .sneImm x k => ⟨.sne, [.reg x, .num k.toNat]⟩
  | .seReg x y => ⟨.se, [.reg x, .reg y]⟩
  | .sneReg x y => ⟨.sne, [.reg x, .reg y]⟩
  | .ldImm x k => ⟨.ld, [.reg x, .num k.toNat]⟩
  | .addImm x k => ⟨.add, [.reg x, .num k.toNat]⟩
  | .ldReg x y => ⟨.ld, [.reg x, .reg y]⟩
  | .or x y => ⟨.or, [.reg x, .reg y]⟩
  | .and x y => ⟨.and, [.reg x, .reg y]⟩
  | .xor x y => ⟨.xor, [.reg x, .reg y]⟩
  | .addReg x y => ⟨.add, [.reg x, .reg y]⟩
  | .sub x y => ⟨.sub, [.reg x, .reg y]⟩
  | .shr x _ => ⟨.shr, [.reg x]⟩
  | .subn x y => ⟨.subn, [.reg x, .reg y]⟩
  | .shl x _ => ⟨.shl, [.reg x]⟩

/-- The letters of a spelling (R60). -/
def Spelling.text : Spelling → String
  | .halt => "HALT" | .ret => "RET" | .jp => "JP" | .call => "CALL" | .se => "SE" | .sne => "SNE"
  | .ld => "LD" | .add => "ADD" | .or => "OR" | .and => "AND" | .xor => "XOR" | .sub => "SUB"
  | .shr => "SHR" | .subn => "SUBN" | .shl => "SHL"

/-- A number's hexadecimal digits, capital letters, as in `V0` to `VF` and `0x2A` (R60). -/
def hexDigits (n : Nat) : String :=
  String.ofList ((Nat.toDigits 16 n).map Char.toUpper)

/-- A written operand as text: `VA`, `0x2A` (R60). -/
def Operand.text : Operand → String
  | .reg n => "V" ++ hexDigits n
  | .num n => "0x" ++ hexDigits n

/-- A written instruction as text: `LD VA, 0xFF` (R60). -/
def Written.text (w : Written) : String :=
  match w.operands with
  | [] => w.name.text
  | os => w.name.text ++ " " ++ String.intercalate ", " (os.map Operand.text)

end Sys2Proof
end

