-- ==== Sys2Proof/Decode.lean ====
section
/-! DEFINITION. The decoder (R50 to R58), the opcode map as data (R55), and the encoder. The decoder is a total, pure
function of the word; a word of no row is answered as `Op.unknown` with the word (R54). -/

namespace Sys2Proof

/-- The operation descriptor (R57): an instruction, or an unrecognised word carried whole. -/
inductive Op where
  | instr (i : Instr)
  | unknown (w : Word)
deriving DecidableEq, Repr

/-- The two fetched bytes as a word: the byte at the lower address is the high byte (R31, R32). -/
def wordOfBytes (hi lo : Byte) : Word := (hi.setWidth 16 <<< 8) ||| lo.setWidth 16

/-- The high byte of a word, stored at the lower address (R31). -/
def hiByte (w : Word) : Byte := w.extractLsb' 8 8

/-- The low byte of a word, stored at the higher address (R31). -/
def loByte (w : Word) : Byte := w.extractLsb' 0 8

/-- The operation class `c`, bits 15:12 (R51). -/
def fieldC (w : Word) : BitVec 4 := w.extractLsb' 12 4

/-- `x`, bits 11:8 (R51). -/
def fieldX (w : Word) : RegIx := (w.extractLsb' 8 4).toFin

/-- `y`, bits 7:4 (R51). -/
def fieldY (w : Word) : RegIx := (w.extractLsb' 4 4).toFin

/-- `n`, bits 3:0 (R51). -/
def fieldN (w : Word) : BitVec 4 := w.extractLsb' 0 4

/-- `kk`, bits 7:0 (R51). -/
def fieldKK (w : Word) : Byte := w.extractLsb' 0 8

/-- `nnn`, bits 11:0 (R51). -/
def fieldNNN (w : Word) : Addr := w.extractLsb' 0 12

/-- Class 8: the selector `n` must match exactly (R54, D6, log 7). -/
def decodeClass8 (w : Word) : Op :=
  let x := fieldX w
  let y := fieldY w
  if fieldN w = 0x0 then .instr (.ldReg x y)
  else if fieldN w = 0x1 then .instr (.or x y)
  else if fieldN w = 0x2 then .instr (.and x y)
  else if fieldN w = 0x3 then .instr (.xor x y)
  else if fieldN w = 0x4 then .instr (.addReg x y)
  else if fieldN w = 0x5 then .instr (.sub x y)
  else if fieldN w = 0x6 then .instr (.shr x y)
  else if fieldN w = 0x7 then .instr (.subn x y)
  else if fieldN w = 0xE then .instr (.shl x y)
  else .unknown w

/-- `Decode(w)` (R54). -/
def decodeWord (w : Word) : Op :=
  if w = 0x0000 then .instr .halt
  else if w = 0x00EE then .instr .ret
  else if fieldC w = 0x1 then .instr (.jp (fieldNNN w))
  else if fieldC w = 0x2 then .instr (.call (fieldNNN w))
  else if fieldC w = 0x3 then .instr (.seImm (fieldX w) (fieldKK w))
  else if fieldC w = 0x4 then .instr (.sneImm (fieldX w) (fieldKK w))
  else if fieldC w = 0x5 ∧ fieldN w = 0 then .instr (.seReg (fieldX w) (fieldY w))
  else if fieldC w = 0x6 then .instr (.ldImm (fieldX w) (fieldKK w))
  else if fieldC w = 0x7 then .instr (.addImm (fieldX w) (fieldKK w))
  else if fieldC w = 0x8 then decodeClass8 w
  else if fieldC w = 0x9 ∧ fieldN w = 0 then .instr (.sneReg (fieldX w) (fieldY w))
  else if fieldC w = 0xB then .instr (.jpV0 (fieldNNN w))
  else .unknown w

/-- The decoder on the two bytes of an instruction, lower address first. -/
def decodeBytes (hi lo : Byte) : Op := decodeWord (wordOfBytes hi lo)

/-- The instruction of an operation descriptor, nothing for an unknown word. -/
def Op.instr? : Op → Option Instr
  | .instr i => some i
  | .unknown _ => none

/-- The decoder on a word of spec/opcode_table.json: the bits above `nbits` are zero, and an instruction is the 16 bits of
the first word (R50), laid out high byte first. -/
def decodeTableWord (nbits w : Nat) : Option Instr :=
  let word := BitVec.ofNat 16 (w % 2 ^ nbits)
  (decodeBytes (hiByte word) (loByte word)).instr?

/-- The four formats (R52). -/
inductive Format where
  | Z | A | XK | XY
deriving DecidableEq, Repr

/-- A row of the opcode map: `w` selects the row exactly when `(w & mask) == pattern` (R55). -/
structure Row where
  number : Nat
  format : Format
  mask : Word
  pattern : Word
deriving DecidableEq, Repr

/-- The row of an instruction (R55). -/
def Instr.row : Instr → Row
  | .halt => ⟨1, .Z, 0xFFFF, 0x0000⟩
  | .ret => ⟨2, .Z, 0xFFFF, 0x00EE⟩
  | .jp _ => ⟨3, .A, 0xF000, 0x1000⟩
  | .jpV0 _ => ⟨4, .A, 0xF000, 0xB000⟩
  | .call _ => ⟨5, .A, 0xF000, 0x2000⟩
  | .seImm _ _ => ⟨6, .XK, 0xF000, 0x3000⟩
  | .sneImm _ _ => ⟨7, .XK, 0xF000, 0x4000⟩
  | .seReg _ _ => ⟨8, .XY, 0xF00F, 0x5000⟩
  | .sneReg _ _ => ⟨9, .XY, 0xF00F, 0x9000⟩
  | .ldImm _ _ => ⟨10, .XK, 0xF000, 0x6000⟩
  | .addImm _ _ => ⟨11, .XK, 0xF000, 0x7000⟩
  | .ldReg _ _ => ⟨12, .XY, 0xF00F, 0x8000⟩
  | .or _ _ => ⟨13, .XY, 0xF00F, 0x8001⟩
  | .and _ _ => ⟨14, .XY, 0xF00F, 0x8002⟩
  | .xor _ _ => ⟨15, .XY, 0xF00F, 0x8003⟩
  | .addReg _ _ => ⟨16, .XY, 0xF00F, 0x8004⟩
  | .sub _ _ => ⟨17, .XY, 0xF00F, 0x8005⟩
  | .shr _ _ => ⟨18, .XY, 0xF00F, 0x8006⟩
  | .subn _ _ => ⟨19, .XY, 0xF00F, 0x8007⟩
  | .shl _ _ => ⟨20, .XY, 0xF00F, 0x800E⟩

/-- The opcode map (R55): the twenty rows, in the table's order. -/
def opcodeMap : List Row :=
  [Instr.halt.row, Instr.ret.row, (Instr.jp 0).row, (Instr.jpV0 0).row, (Instr.call 0).row,
   (Instr.seImm 0 0).row, (Instr.sneImm 0 0).row, (Instr.seReg 0 0).row, (Instr.sneReg 0 0).row,
   (Instr.ldImm 0 0).row, (Instr.addImm 0 0).row, (Instr.ldReg 0 0).row, (Instr.or 0 0).row,
   (Instr.and 0 0).row, (Instr.xor 0 0).row, (Instr.addReg 0 0).row, (Instr.sub 0 0).row,
   (Instr.shr 0 0).row, (Instr.subn 0 0).row, (Instr.shl 0 0).row]

/-- A word of format A: class, then `nnn` (R52). -/
def wordA (c : BitVec 4) (nnn : Addr) : Word := c ++ nnn

/-- A word of format XK: class, `x`, `kk` (R52). -/
def wordXK (c : BitVec 4) (x : RegIx) (kk : Byte) : Word := c ++ BitVec.ofNat 4 x.val ++ kk

/-- A word of format XY: class, `x`, `y`, selector `n` (R52). -/
def wordXY (c : BitVec 4) (x y : RegIx) (n : BitVec 4) : Word :=
  c ++ BitVec.ofNat 4 x.val ++ BitVec.ofNat 4 y.val ++ n

/-- The word of an instruction, from the formats and the opcode map (R52, R55). -/
def encode : Instr → Word
  | .halt => 0x0000
  | .ret => 0x00EE
  | .jp nnn => wordA 0x1 nnn
  | .jpV0 nnn => wordA 0xB nnn
  | .call nnn => wordA 0x2 nnn
  | .seImm x kk => wordXK 0x3 x kk
  | .sneImm x kk => wordXK 0x4 x kk
  | .seReg x y => wordXY 0x5 x y 0x0
  | .sneReg x y => wordXY 0x9 x y 0x0
  | .ldImm x kk => wordXK 0x6 x kk
  | .addImm x kk => wordXK 0x7 x kk
  | .ldReg x y => wordXY 0x8 x y 0x0
  | .or x y => wordXY 0x8 x y 0x1
  | .and x y => wordXY 0x8 x y 0x2
  | .xor x y => wordXY 0x8 x y 0x3
  | .addReg x y => wordXY 0x8 x y 0x4
  | .sub x y => wordXY 0x8 x y 0x5
  | .shr x y => wordXY 0x8 x y 0x6
  | .subn x y => wordXY 0x8 x y 0x7
  | .shl x y => wordXY 0x8 x y 0xE

/-- The two bytes of an instruction as memory holds them, lower address first (R31, R50). -/
def encodeBytes (i : Instr) : List Byte := [hiByte (encode i), loByte (encode i)]

end Sys2Proof
end

