-- ==== Sys2Proof/Config.lean ====
section
/-! DEFINITION. The parameters of this hardware (R5). None is left open: `LOAD_BASE` belongs to the host and is an argument
of LOAD (Machine/Port.lean). The spec leaves no value free, so there is no opaque constant here. -/

namespace Sys2Proof.Config

/-- `MEM_SIZE`: bytes of memory, addresses 0 to 4095 (R5, R30). -/
abbrev memSize : Nat := 4096

/-- `MAX_FETCH_PC`: the largest pc at which a fetch succeeds (R5, R33). -/
abbrev maxFetchPc : Nat := 4094

/-- `STACK_DEPTH`: entries in the call stack (R5, R16). -/
abbrev stackDepth : Nat := 16

/-- `INSTR_BYTES`: the length of every instruction (R5, R50). -/
abbrev instrBytes : Word := 2

/-- `RESET_PC`: pc after reset (R5, R22). -/
abbrev resetPc : Word := 0

/-- `JP_V0_MASK`: the mask on the target of `JP V0` (R5, R92).
DESIGN CHOICE (the spec's own decision D2; log 5), unsafe. -/
abbrev jpV0Mask : Word := 0x0FFF

/-- `VF`, the flag register, is `V[15]` (R12). -/
abbrev flagReg : RegIx := 15

end Sys2Proof.Config
end

