-- ==== Sys2Proof/Machine/State.lean ====
section
/-! DEFINITION. The state of the machine: the seven items of R10 and nothing else, and its value after reset (R22). -/

namespace Sys2Proof.Machine

/-- `run_state`, the state of the run-loop state machine (R19). -/
inductive RunState where
  | running
  | halted
  | faulted
deriving DecidableEq, Repr

/-- `fault.kind` (R20, R140). -/
inductive FaultKind where
  /-- `None`: no fault has occurred. -/
  | noFault
  /-- A CALL with sixteen return addresses on the stack (R141). -/
  | stackOverflow
  /-- A RET with an empty stack (R142). -/
  | stackUnderflow
  /-- A fetch with `pc > 4094`, or a LOAD that leaves memory (R143). -/
  | outOfBounds
  /-- A fetched word of no row of the opcode map (R144). -/
  | unknownOpcode
  /-- Raised by nothing in this hardware (R145; D5, log 7). -/
  | unimplemented
deriving DecidableEq, Repr

/-- The fault record (R20). -/
structure FaultRecord where
  kind : FaultKind
  word : Word
deriving DecidableEq, Repr

/-- `mem` (R13, R30) as a list of (address, byte) in one canonical form (`Memory.wf`, Machine/Ops.lean; log 3). -/
abbrev Memory := List Host.Cell

/-- The complete architectural state (R10). -/
structure State where
  /-- The general registers `V[0]` to `V[15]` (R11). -/
  V : Vector Byte 16
  /-- The 4096 bytes of memory (R13). -/
  mem : Memory
  /-- The program counter (R14). -/
  pc : Word
  /-- The call stack's sixteen entries (R16). -/
  stack : Vector Word 16
  /-- The stack pointer, 0 to 16 (R17). -/
  sp : Fin 17
  /-- The state of the run loop (R19). -/
  runState : RunState
  /-- The fault record (R20). -/
  fault : FaultRecord
deriving DecidableEq, Repr

/-- The machine right after reset: all zero, running, no fault (R22, R170). Every value is the spec's. -/
def State.reset : State where
  V := Vector.replicate 16 0
  mem := []
  pc := Config.resetPc
  stack := Vector.replicate 16 0
  sp := 0
  runState := .running
  fault := ⟨.noFault, 0⟩

/-- The reasons for which a step answers no state. There are none: each of the five fault kinds of R140 is a STATE of this
machine, entered by `State.raise` (R148, R150), so a faulting step answers a next state (log 1). Raised by nothing; safe. -/
inductive Fault where
deriving DecidableEq, Repr

/-- The reasons for which an instruction has no meaning. -/
inductive Refusal where
  /-- Raised by `exec`'s arm of an instruction that has no meaning yet, under the table's mnemonic; safe. No arm raises
  it: every row of the opcode map has its meaning. -/
  | notModelled (mnemonic : String)
deriving DecidableEq, Repr

/-- What a meaning or a step answers. -/
abbrev StepOutcome := Host.Outcome State Fault Refusal

end Sys2Proof.Machine
end

