-- ==== Sys2Proof/Machine/Ops.lean ====
section
/-! DEFINITION. The named operations over memory, registers, pc, the call stack and the run-loop state (R25), taking a fault
among them (R148). There is no return from a fault (R149). -/

namespace Sys2Proof.Machine

/-! ### Memory (R13, R30 to R36) -/

/-- What an address that is not listed reads as: the reset value of every byte (R22). -/
def Memory.unlisted : Byte := 0

/-- The byte at an address (R9 `mem[a]`). Reading changes nothing (R32). Whoever reads tests the bound first. -/
def Memory.read : Memory → Nat → Byte
  | [], _ => Memory.unlisted
  | (k, c) :: m, a => if k = a then c else Memory.read m a

/-- Put a cell in front, unless it reads as an unlisted address does. -/
def Memory.place (a : Nat) (b : Byte) (m : Memory) : Memory :=
  if b = Memory.unlisted then m else (a, b) :: m

/-- `mem[a] <- b` (R9), keeping the canonical form. -/
def Memory.write : Memory → Nat → Byte → Memory
  | [], a, b => Memory.place a b []
  | (k, c) :: m, a, b =>
    if a < k then Memory.place a b ((k, c) :: m)
    else if a = k then Memory.place a b m
    else (k, c) :: Memory.write m a b

/-- `mem[base + i] <- bytes[i]`, one byte at a time (R81). -/
def Memory.writeBytes : Memory → Nat → List Byte → Memory
  | m, _, [] => m
  | m, a, b :: bs => Memory.writeBytes (Memory.write m a b) (a + 1) bs

/-- The `n` bytes at `a`, `a + 1`, ... -/
def Memory.readBytes (m : Memory) : Nat → Nat → List Byte
  | _, 0 => []
  | a, n + 1 => Memory.read m a :: Memory.readBytes m (a + 1) n

/-- The canonical form from address `lo` on: addresses strictly rising and inside memory, no byte as an unlisted one. -/
def Memory.wfFrom : Nat → Memory → Bool
  | _, [] => true
  | lo, (k, c) :: m => decide (lo ≤ k) && decide (k < Config.memSize) && decide (c ≠ Memory.unlisted)
      && Memory.wfFrom (k + 1) m

/-- The canonical form of memory. Equal memories are equal lists (log 3). -/
def Memory.wf (m : Memory) : Bool := Memory.wfFrom 0 m

/-- `MemRead(a, 2)`, most significant byte first, defined for `a <= 4094` (R32). -/
def Memory.readWord? (m : Memory) (a : Nat) : Option Word :=
  if a ≤ Config.maxFetchPc then some (wordOfBytes (m.read a) (m.read (a + 1))) else none

/-! ### Registers and pc (R11, R14) -/

/-- `V[i]`. -/
def State.reg (s : State) (i : RegIx) : Byte := s.V[i]

/-- `V[i] <- v`. No register is hardwired (R11). -/
def State.setReg (s : State) (i : RegIx) (v : Byte) : State := { s with V := s.V.set i.val v i.isLt }

/-- `pc <- t`. The target is not checked (R34, R91). -/
def State.setPc (s : State) (t : Word) : State := { s with pc := t }

/-- `pc <- (pc + 2) mod 2^16`: the advance of a step (R74), and what a taken skip adds (R104). -/
def State.advancePc (s : State) : State := s.setPc (s.pc + Config.instrBytes)

/-- A skip: past the next instruction when the condition holds (R104). -/
def State.skipIf (s : State) (c : Bool) : State := if c then s.advancePc else s

/-! ### The call stack (R16 to R18) -/

/-- `push(return_address)`: writes `stack[sp]`, then increments `sp`; fails when sixteen are held (R17). -/
def State.push (s : State) (v : Word) : Except FaultKind State :=
  if h : s.sp.val < Config.stackDepth then
    .ok { s with stack := s.stack.set s.sp.val v h, sp := ⟨s.sp.val + 1, Nat.succ_lt_succ h⟩ }
  else .error .stackOverflow

/-- `pop()`: decrements `sp`, returns `stack[sp]`; fails when none is held (R17). The popped entry stays (R18; D22,
log 19). -/
def State.pop (s : State) : Except FaultKind (Word × State) :=
  if h : s.sp.val = 0 then .error .stackUnderflow
  else
    have hp : s.sp.val - 1 < 16 := by omega
    .ok (s.stack[s.sp.val - 1], { s with sp := ⟨s.sp.val - 1, by omega⟩ })

/-! ### The run loop (R19, R148) -/

/-- `raise K(info)`: taking a fault (R148). The record's word is `info` for `UnknownOpcode`, else 0. Nothing else is
written: `pc` stays where the step has it (D3, log 6). -/
def State.raise (s : State) (k : FaultKind) (info : Word) : State :=
  { s with runState := .faulted, fault := ⟨k, if k = .unknownOpcode then info else 0⟩ }

/-- `run_state <- Halted` (R78). -/
def State.halt (s : State) : State := { s with runState := .halted }

/-- The instruction word at `pc`, or nothing when `pc > 4094` (R33, R73). -/
def State.fetch (s : State) : Option Word := s.mem.readWord? s.pc.toNat

/-- A state the next step can fetch in: running, and `pc` inside memory. A state that is so already is unchanged. -/
def State.readyToFetch (s : State) : State :=
  { s with
    pc := if s.pc.toNat ≤ Config.maxFetchPc then s.pc else Config.resetPc
    runState := .running
    fault := if s.runState = .faulted then ⟨.noFault, 0⟩ else s.fault }

/-! ### Numeric codes (R140; D9, log 10) -/

/-- The code of `run_state` (R140). -/
def RunState.code : RunState → Nat
  | .running => 0
  | .halted => 1
  | .faulted => 2

/-- The code of `fault.kind` (R140). -/
def FaultKind.code : FaultKind → Nat
  | .noFault => 0
  | .stackOverflow => 1
  | .stackUnderflow => 2
  | .outOfBounds => 3
  | .unknownOpcode => 4
  | .unimplemented => 5

end Sys2Proof.Machine
end

