-- ==== Sys2Proof/Machine/Flags.lean ====
section
/-! DEFINITION. The flag values (R130, R131), each exactly 0 or 1, and the one way a result and its flag are written
(R120). -/

namespace Sys2Proof.Machine

/-- Carry of `a + b`: 1 exactly when the exact sum exceeds 255 (R125, R130). -/
def carryFlag (a b : Byte) : Byte := if a.toNat + b.toNat > 255 then 1 else 0

/-- Not-borrow of `a - b`: 1 exactly when `a >= b` (R126, R128, R130).
DESIGN CHOICE (the spec's own decision D8; log 9), unsafe. -/
def notBorrowFlag (a b : Byte) : Byte := if a.toNat ≥ b.toNat then 1 else 0

/-- The bit a right shift sends out: `a & 0x01` (R127). -/
def shiftedOutRight (a : Byte) : Byte := a &&& 0x01

/-- The bit a left shift sends out: `(a & 0x80) >> 7` (R129). -/
def shiftedOutLeft (a : Byte) : Byte := (a &&& 0x80) >>> 7

/-- `V[x] <- r`, and last of all `V[F] <- f` (R120): with `x = 0xF` the flag is what stays.
DESIGN CHOICE for SUB, SUBN, SHR and SHL with `x = 0xF` (the spec's own decision D7; log 8), unsafe. -/
def State.setRegAndFlag (s : State) (x : RegIx) (r f : Byte) : State :=
  (s.setReg x r).setReg Config.flagReg f

end Sys2Proof.Machine
end

