-- ==== Sys2Proof/Machine/Alu.lean ====
section
/-! DEFINITION. Register-register operations of class 8 (R120 to R131). Each reads its operands first, from the state it is
given; the flag-writing five write `V[x]` and then `VF` (R120). -/

namespace Sys2Proof.Machine

/-- LD Vx, Vy (R121). -/
def execLdReg (x y : RegIx) (s : State) : StepOutcome := .next (s.setReg x (s.reg y))

/-- OR Vx, Vy; VF is not written (R122, R131; D26, log 21). -/
def execOr (x y : RegIx) (s : State) : StepOutcome := .next (s.setReg x (s.reg x ||| s.reg y))

/-- AND Vx, Vy; VF is not written (R123, R131; D26, log 21). -/
def execAnd (x y : RegIx) (s : State) : StepOutcome := .next (s.setReg x (s.reg x &&& s.reg y))

/-- XOR Vx, Vy; VF is not written (R124, R131; D26, log 21). -/
def execXor (x y : RegIx) (s : State) : StepOutcome := .next (s.setReg x (s.reg x ^^^ s.reg y))

/-- ADD Vx, Vy with carry (R125). -/
def execAddReg (x y : RegIx) (s : State) : StepOutcome :=
  .next (s.setRegAndFlag x (s.reg x + s.reg y) (carryFlag (s.reg x) (s.reg y)))

/-- SUB Vx, Vy with not-borrow (R126). -/
def execSub (x y : RegIx) (s : State) : StepOutcome :=
  .next (s.setRegAndFlag x (s.reg x - s.reg y) (notBorrowFlag (s.reg x) (s.reg y)))

/-- SHR Vx: the operand is `V[x]`; `y` is ignored (R127, R58). -/
def execShr (x _y : RegIx) (s : State) : StepOutcome :=
  .next (s.setRegAndFlag x (s.reg x >>> 1) (shiftedOutRight (s.reg x)))

/-- SUBN Vx, Vy: `Vy - Vx` with not-borrow (R128). -/
def execSubn (x y : RegIx) (s : State) : StepOutcome :=
  .next (s.setRegAndFlag x (s.reg y - s.reg x) (notBorrowFlag (s.reg y) (s.reg x)))

/-- SHL Vx: the operand is `V[x]`; `y` is ignored (R129, R58). -/
def execShl (x _y : RegIx) (s : State) : StepOutcome :=
  .next (s.setRegAndFlag x (s.reg x <<< 1) (shiftedOutLeft (s.reg x)))

end Sys2Proof.Machine
end

