-- ==== Sys2Proof/Machine/Operands.lean ====
section
/-! DEFINITION. The operand forms (R53): a register by its index (`State.reg`), `kk` unchanged, `nnn` zero-extended, and the
one computed address, `V0 + nnn`. There are no addressing modes and nothing is sign-extended. -/

namespace Sys2Proof.Machine

/-- `nnn` as an address: `zext_16(nnn)` (R53). -/
def addrOperand (nnn : Addr) : Word := nnn.setWidth 16

/-- The target of `JP V0, nnn`: the 16-bit sum, wrapped within the 12-bit address space (R92).
DESIGN CHOICE (the spec's own decision D2; log 5), unsafe. -/
def offsetOperand (s : State) (nnn : Addr) : Word :=
  ((s.reg 0).setWidth 16 + addrOperand nnn) &&& Config.jpV0Mask

end Sys2Proof.Machine
end

