-- ==== Sys2Proof/Machine/Control.lean ====
section
/-! DEFINITION. Control transfer: RET, JP, JP V0, CALL (R90 to R93). `pc` already holds the address of the instruction
plus 2 (R74). A fault raised here leaves it there (R148). -/

namespace Sys2Proof.Machine

/-- RET: pop into `pc`, all 16 bits unchecked (R90). -/
def execRet (s : State) : StepOutcome :=
  match s.pop with
  | .error k => .next (s.raise k 0)
  | .ok (v, s') => .next (s'.setPc v)

/-- JP nnn (R91). -/
def execJp (nnn : Addr) (s : State) : StepOutcome := .next (s.setPc (addrOperand nnn))

/-- JP V0, nnn (R92). -/
def execJpV0 (nnn : Addr) (s : State) : StepOutcome := .next (s.setPc (offsetOperand s nnn))

/-- CALL nnn: push the advanced `pc`, then jump (R93). -/
def execCall (nnn : Addr) (s : State) : StepOutcome :=
  match s.push s.pc with
  | .error k => .next (s.raise k 0)
  | .ok s' => .next (s'.setPc (addrOperand nnn))

end Sys2Proof.Machine
end

