-- ==== Sys2Proof/Machine/Immediate.lean ====
section
/-! DEFINITION. Register-immediate operations: LD and ADD (R110, R111). -/

namespace Sys2Proof.Machine

/-- LD Vx, kk (R110). -/
def execLdImm (x : RegIx) (kk : Byte) (s : State) : StepOutcome := .next (s.setReg x kk)

/-- ADD Vx, kk: 8-bit wraparound, no flag (R111). -/
def execAddImm (x : RegIx) (kk : Byte) (s : State) : StepOutcome := .next (s.setReg x (s.reg x + kk))

end Sys2Proof.Machine
end

