-- ==== Sys2Proof/Machine/Loop.lean ====
section
/-! DEFINITION. What belongs to the run loop itself: HALT (R78) and a word of no instruction (R144). -/

namespace Sys2Proof.Machine

/-- HALT (R78). -/
def execHalt (s : State) : StepOutcome := .next s.halt

/-- Executing `Unknown(w)` raises UnknownOpcode with the word (R56, R144; log 7). -/
def execUnknown (w : Word) (s : State) : StepOutcome := .next (s.raise .unknownOpcode w)

end Sys2Proof.Machine
end

