-- ==== Sys2Proof/Machine/Skip.lean ====
section
/-! DEFINITION. The conditional skips (R100 to R104): `pc` already holds the address of the instruction plus 2. -/

namespace Sys2Proof.Machine

/-- SE Vx, kk (R100). -/
def execSeImm (x : RegIx) (kk : Byte) (s : State) : StepOutcome := .next (s.skipIf (s.reg x == kk))

/-- SNE Vx, kk (R101). -/
def execSneImm (x : RegIx) (kk : Byte) (s : State) : StepOutcome := .next (s.skipIf (s.reg x != kk))

/-- SE Vx, Vy (R102). -/
def execSeReg (x y : RegIx) (s : State) : StepOutcome := .next (s.skipIf (s.reg x == s.reg y))

/-- SNE Vx, Vy (R103). -/
def execSneReg (x y : RegIx) (s : State) : StepOutcome := .next (s.skipIf (s.reg x != s.reg y))

end Sys2Proof.Machine
end

