-- ==== Sys2Proof/Machine/Step.lean ====
section
/-! DEFINITION. One step (R71): fetch, advance, decode, execute. -/

namespace Sys2Proof.Machine

/-- `Step()` (R71). A step in a terminal state changes nothing (R72; log 12). A fetch outside memory raises OutOfBounds with
`pc` unchanged (R73). Otherwise `pc` advances by 2 (R74; D3, log 6), the word is decoded (R75) and executed (R76). -/
def step (s : State) : Host.Outcome State Fault Refusal :=
  match s.runState with
  | .halted => .next s
  | .faulted => .next s
  | .running =>
    match s.fetch with
    | none => .next (s.raise .outOfBounds 0)
    | some w =>
      match decodeWord w with
      | .instr i => exec i s.advancePc
      | .unknown u => execUnknown u s.advancePc

/-- The instruction of `nbits` bits `w` (the bits above are zero) placed where the next step fetches, high byte first
(R31). The machine is made ready to fetch where it is not: a terminal run state becomes Running and a `pc` above 4094
becomes 0 (log 2). -/
def State.withFetchWord (s : State) (nbits w : Nat) : State :=
  let word := BitVec.ofNat 16 (w % 2 ^ nbits)
  let r := s.readyToFetch
  { r with mem := r.mem.writeBytes r.pc.toNat [hiByte word, loByte word] }

end Sys2Proof.Machine
end

