-- ==== Sys2Proof/Machine/Port.lean ====
section
/-! DEFINITION. The host interface (R79 to R86): five atomic transactions, RESET, LOAD, STEP, RUN_TO_HALT and READ. They are
transitions of the state made between steps; `step` itself takes no input (log 17). -/

namespace Sys2Proof.Machine

/-! ### LOAD (R81; D12, log 11) -/

/-- What LOAD returns (R81). -/
inductive LoadResult where
  | success
  | failure (k : FaultKind)
deriving DecidableEq, Repr

/-- `LOAD(base, bytes)` (R81): the bound is tested in exact integers before any byte is written; a failing LOAD writes no
memory and takes a Running machine to Faulted; a successful one writes memory only. Any base is allowed (D20, log 18). -/
def State.load (s : State) (base : Nat) (bytes : List Byte) : LoadResult × State :=
  if base + bytes.length > Config.memSize then
    (.failure .outOfBounds, if s.runState = .running then s.raise .outOfBounds 0 else s)
  else (.success, { s with mem := s.mem.writeBytes base bytes })

/-! ### STEP (R82) -/

/-- The side-effect descriptor of a step: always `None` in this hardware (R77; D15, log 14). -/
inductive SideEffect where
  | none
deriving DecidableEq, Repr

/-- `StepResult` (R82). -/
structure StepResult where
  runState : RunState
  fault : Option FaultRecord
  sideEffect : SideEffect
deriving DecidableEq, Repr

/-- Neither Halted nor Faulted: steps still execute (R72). -/
def State.isRunning (s : State) : Bool := s.runState == .running

/-- What STEP reports of the state after the step (R82). -/
def State.stepResult (s : State) : StepResult where
  runState := s.runState
  fault := if s.runState = .faulted then some s.fault else none
  sideEffect := .none

/-- The state a step leaves. `none` would be a step that answers no state; there is none such (log 1). -/
def State.afterStep (s : State) : Option State :=
  match step s with
  | .next t => some t
  | .fault _ => none
  | .refused _ => none

/-- STEP: the result and the state after it (R82). -/
def State.stepTransaction (s : State) : Option (StepResult × State) :=
  s.afterStep.map fun t => (t.stepResult, t)

/-! ### RUN_TO_HALT (R83; D23, log 20) -/

/-- RUN_TO_HALT cut off after `fuel` steps: the terminal state it reaches, or nothing when it has not reached one yet. It has
no limit of its own: it returns `t` exactly when some fuel gives `t`. -/
def State.runToHalt : Nat → State → Option State
  | 0, s => if s.isRunning then none else some s
  | n + 1, s => if s.isRunning then s.afterStep.bind (State.runToHalt n) else some s

/-! ### READ (R84; D14, log 13) -/

/-- What the host may read. `stack` and `sp` are not among it (R16, R84). -/
inductive ReadRequest where
  | reg (i : RegIx)
  | pc
  | runState
  | fault
  | memory (base len : Nat)
deriving DecidableEq, Repr

/-- What READ returns. -/
inductive ReadReply where
  | reg (v : Byte)
  | pc (v : Word)
  | runState (r : RunState)
  | fault (f : FaultRecord)
  | memory (bytes : List Byte)
deriving DecidableEq, Repr

/-- `READ` (R84). A memory range that leaves memory is refused: nothing is returned. READ never changes the state. -/
def State.readPort (s : State) : ReadRequest → Option ReadReply
  | .reg i => some (.reg (s.reg i))
  | .pc => some (.pc s.pc)
  | .runState => some (.runState s.runState)
  | .fault => some (.fault s.fault)
  | .memory base len =>
    if base + len ≤ Config.memSize then some (.memory (s.mem.readBytes base len)) else none

/-! ### The transactions together (R79) -/

/-- The five transactions (R79). -/
inductive Transaction where
  | reset
  | load (base : Nat) (bytes : List Byte)
  | step
  | runToHalt
  | read (r : ReadRequest)
deriving DecidableEq, Repr

/-- `tr` takes the machine from `s` to `t` in one atomic transition (R85). RUN_TO_HALT has an effect only when it returns
(R83). -/
def Transaction.takes (tr : Transaction) (s t : State) : Prop :=
  match tr with
  | .reset => t = State.reset
  | .load base bytes => t = (s.load base bytes).2
  | .step => Machine.step s = .next t
  | .runToHalt => ∃ fuel, s.runToHalt fuel = some t
  | .read _ => t = s

end Sys2Proof.Machine
end

