-- ==== Sys2Proof/Safety.lean ====
section
/-! DEFINITION. What statements about this machine are said in: reachable states, the invariant, what a state keeps, and
what an instruction may write or read according to the spec's tables (R12, R15, R131). Nothing here is used by the
machine. -/

namespace Sys2Proof.Machine

/-- Halted or Faulted (glossary: "Terminal state"). -/
def State.terminal (s : State) : Prop := s.runState ≠ .running

/-- The one normal end of a run (R86). -/
def State.endedWell (s : State) : Prop := s.runState = .halted

/-- Reachable from reset by the transactions (R24). -/
inductive Reachable : State → Prop where
  | reset : Reachable State.reset
  | after {s t : State} (tr : Transaction) : Reachable s → tr.takes s t → Reachable t

/-- The invariant of the machine. -/
structure State.Inv (s : State) : Prop where
  /-- Memory is in its canonical form (log 3). -/
  memWf : s.mem.wf = true
  /-- The kind is `None` exactly when the run state is not Faulted (R20). -/
  faultIff : s.fault.kind = .noFault ↔ s.runState ≠ .faulted
  /-- The word is 0 for every kind but UnknownOpcode (R20). -/
  faultWord : s.fault.kind ≠ .unknownOpcode → s.fault.word = 0
  /-- The word of UnknownOpcode is one the decoder does not recognise (R144). -/
  faultUnknown : s.fault.kind = .unknownOpcode → decodeWord s.fault.word = .unknown s.fault.word
  /-- Nothing raises Unimplemented (R145). -/
  neverUnimplemented : s.fault.kind ≠ .unimplemented
  /-- The reachable range of `pc` (R24). -/
  pcRange : s.pc.toNat ≤ 4098
  /-- Every live stack entry is an advanced pc, at most 4096 (R24). -/
  liveRange : ∀ i : Fin 16, i.val < s.sp.val → s.stack[i].toNat ≤ 4096

/-- Everything but the registers in `rs` and the pc is as before: each other register, each byte of memory, each stack
entry, `sp`, the run state and the fault record. -/
structure KeepsBut (rs : List RegIx) (s t : State) : Prop where
  regs : ∀ r, r ∉ rs → t.reg r = s.reg r
  mem : ∀ a, t.mem.read a = s.mem.read a
  stack : ∀ i : Fin 16, t.stack[i] = s.stack[i]
  sp : t.sp = s.sp
  runState : t.runState = s.runState
  fault : t.fault = s.fault

/-- The registers, memory, the stack and `sp` are as before: what a fault leaves alone (R148). -/
structure KeepsData (s t : State) : Prop where
  regs : ∀ r, t.reg r = s.reg r
  mem : ∀ a, t.mem.read a = s.mem.read a
  stack : ∀ i : Fin 16, t.stack[i] = s.stack[i]
  sp : t.sp = s.sp

/-- The two states differ at most in stack entries that hold no live return address (R18). -/
structure SameButStale (s t : State) : Prop where
  V : t.V = s.V
  mem : t.mem = s.mem
  pc : t.pc = s.pc
  sp : t.sp = s.sp
  runState : t.runState = s.runState
  fault : t.fault = s.fault
  live : ∀ i : Fin 16, i.val < s.sp.val → t.stack[i] = s.stack[i]

/-- `n` steps take the machine from `s` to `t`. -/
def Steps : Nat → State → State → Prop
  | 0, s, t => t = s
  | n + 1, s, t => ∃ u, step s = .next u ∧ Steps n u t

/-- Where `pc` is after the instruction `i` is fetched at `s.pc` and executed (R15): the table of R15, with the two forms
that fault left at the advanced address (R148; D3, log 6) and `JP V0` wrapped (R92; D2, log 5). -/
def pcAfter (i : Instr) (s : State) : Nat :=
  match i with
  | .ret => if h : 0 < s.sp.val then (s.stack[s.sp.val - 1]'(by omega)).toNat else s.pc.toNat + 2
  | .jp nnn => nnn.toNat
  | .jpV0 nnn => ((s.reg 0).toNat + nnn.toNat) % 4096
  | .call nnn => if s.sp.val < 16 then nnn.toNat else s.pc.toNat + 2
  | .seImm x kk => if s.reg x = kk then s.pc.toNat + 4 else s.pc.toNat + 2
  | .sneImm x kk => if s.reg x ≠ kk then s.pc.toNat + 4 else s.pc.toNat + 2
  | .seReg x y => if s.reg x = s.reg y then s.pc.toNat + 4 else s.pc.toNat + 2
  | .sneReg x y => if s.reg x ≠ s.reg y then s.pc.toNat + 4 else s.pc.toNat + 2
  | .halt | .ldImm _ _ | .addImm _ _ | .ldReg _ _ | .or _ _ | .and _ _ | .xor _ _ | .addReg _ _ | .sub _ _
  | .shr _ _ | .subn _ _ | .shl _ _ => s.pc.toNat + 2

/-- `n` is the word of `i`: encoding gives it, and decoding it gives `i` back. -/
def WordOf (i : Instr) (n : Nat) : Prop :=
  (encode i).toNat = n ∧ decodeWord (BitVec.ofNat 16 n) = .instr i

/-- `i` is a skip whose condition holds in `s` (R100 to R104). -/
def takenSkip (i : Instr) (s : State) : Prop :=
  (∃ x kk, i = .seImm x kk ∧ s.reg x = kk) ∨ (∃ x kk, i = .sneImm x kk ∧ s.reg x ≠ kk) ∨
  (∃ x y, i = .seReg x y ∧ s.reg x = s.reg y) ∨ (∃ x y, i = .sneReg x y ∧ s.reg x ≠ s.reg y)

end Sys2Proof.Machine

namespace Sys2Proof

/-- The destination register: the `x` field of an instruction that writes `V[x]` (R110, R111, R131). -/
def Instr.dest? : Instr → Option RegIx
  | .halt | .ret | .jp _ | .jpV0 _ | .call _ => none
  | .seImm _ _ | .sneImm _ _ | .seReg _ _ | .sneReg _ _ => none
  | .ldImm x _ | .addImm x _ => some x
  | .ldReg x _ | .or x _ | .and x _ | .xor x _ => some x
  | .addReg x _ | .sub x _ | .shr x _ | .subn x _ | .shl x _ => some x

/-- The five instructions that write VF as a side effect (R12). -/
def Instr.writesFlag : Instr → Bool
  | .addReg _ _ | .sub _ _ | .shr _ _ | .subn _ _ | .shl _ _ => true
  | .halt | .ret | .jp _ | .jpV0 _ | .call _ => false
  | .seImm _ _ | .sneImm _ _ | .seReg _ _ | .sneReg _ _ => false
  | .ldImm _ _ | .addImm _ _ => false
  | .ldReg _ _ | .or _ _ | .and _ _ | .xor _ _ => false

/-- The registers an instruction names as source operands: V0 for `JP V0`, and not `y` of the two shifts (R58, R92). -/
def Instr.sources : Instr → List RegIx
  | .halt | .ret | .jp _ | .call _ => []
  | .jpV0 _ => [0]
  | .seImm x _ | .sneImm x _ | .addImm x _ => [x]
  | .ldImm _ _ => []
  | .ldReg _ y => [y]
  | .seReg x y | .sneReg x y => [x, y]
  | .or x y | .and x y | .xor x y | .addReg x y | .sub x y | .subn x y => [x, y]
  | .shr x _ | .shl x _ => [x]

end Sys2Proof
end

