-- ==== Sys2Proof/Certificates/Slice0/Obligations.lean ====
section
/-! DEFINITION. The statements for the provers. Each docstring names the rule it formalises; "log n" is the log entry of a
choice it rests on. `exec` is given the state after the advance, so `s.pc` is `A + 2` there (R74). -/

open Sys2Proof Sys2Proof.Machine

/-! ### Reset -/

/-- R22, R170: what reset leaves. The fault record's value is the spec's own decision D16 (log 15). -/
def Obligations.ResetIsAllZeroAndRunning : Prop :=
  (∀ i : RegIx, State.reset.reg i = 0) ∧ (∀ a, State.reset.mem.read a = 0) ∧
  (∀ i : Fin 16, State.reset.stack[i] = 0) ∧ State.reset.pc = 0 ∧ State.reset.sp = 0 ∧
  State.reset.runState = .running ∧ State.reset.fault = ⟨.noFault, 0⟩

/-- Reset meets the invariant that every step keeps. -/
def Obligations.ResetMeetsTheInvariant : Prop := State.reset.Inv

/-! ### Fetch and step -/

/-- R32: the two-byte read, where it is defined and where it is not. -/
def Obligations.TwoByteReadIsHighByteFirst : Prop :=
  ∀ (m : Memory) (a : Nat),
    (a ≤ 4094 → ∃ w, m.readWord? a = some w ∧ w.toNat = (m.read a).toNat * 256 + (m.read (a + 1)).toNat) ∧
    (4095 ≤ a → m.readWord? a = none)

/-- R33, R73: a running machine with `pc > 4094` faults with OutOfBounds and `pc` keeps its value (D3, log 6). -/
def Obligations.FetchOutsideMemoryFaults : Prop :=
  ∀ s : State, s.runState = .running → 4094 < s.pc.toNat →
    ∃ t, step s = .next t ∧ t.runState = .faulted ∧ t.fault = ⟨.outOfBounds, 0⟩ ∧ t.pc = s.pc ∧ KeepsData s t

/-- R71: when the two bytes at `pc` decode to `i`, a step is `exec i` of the state whose `pc` has moved past them. The
advance before decoding is D3 (log 6). -/
def Obligations.StepRunsTheDecodedInstruction : Prop :=
  ∀ (s : State) (i : Instr), s.runState = .running → s.pc.toNat ≤ 4094 →
    decodeBytes (s.mem.read s.pc.toNat) (s.mem.read (s.pc.toNat + 1)) = .instr i →
    step s = exec i { s with pc := s.pc + 2 }

/-- R56, R144, R148: a fetched word the decoder does not recognise faults with that word; `pc` is past it (D3, log 6), and
no such word is skipped (D4, log 7). -/
def Obligations.UnknownWordFaultsWithTheWord : Prop :=
  ∀ (s : State) (w u : Word), s.runState = .running → s.fetch = some w → decodeWord w = .unknown u →
    u = w ∧ ∃ t, step s = .next t ∧ t.runState = .faulted ∧ t.fault = ⟨.unknownOpcode, w⟩ ∧
      t.pc.toNat = s.pc.toNat + 2 ∧ KeepsData s t

/-- R72: a step in Halted or Faulted changes nothing (D13, log 12). -/
def Obligations.TerminalStepChangesNothing : Prop :=
  ∀ s : State, s.runState ≠ .running → step s = .next s

/-- R71: a step is total; every state has a next state. -/
def Obligations.StepAlwaysAnswersAState : Prop :=
  ∀ s : State, ∃ t, step s = .next t

/-- R70, R77, R86: from Running, a step halts exactly on the word 0x0000, and faults exactly on a fetch outside memory, an
unrecognised word, a CALL on a full stack or a RET on an empty one. -/
def Obligations.WhenAStepHaltsOrFaults : Prop :=
  ∀ s t : State, s.runState = .running → step s = .next t →
    (t.runState = .halted ↔ s.fetch = some 0x0000) ∧
    (t.runState = .faulted ↔ (4094 < s.pc.toNat ∨ ∃ w, s.fetch = some w ∧
      (decodeWord w = .unknown w ∨ (decodeWord w = .instr .ret ∧ s.sp.val = 0) ∨
        ∃ nnn, decodeWord w = .instr (.call nnn) ∧ s.sp.val = 16)))

/-- R148: a step that faults leaves registers, memory, stack and `sp` alone; `pc` is the fetch address for a fetch fault and
the next address otherwise (D3, log 6); the record's word is 0 but for UnknownOpcode. -/
def Obligations.FaultingStepIsPrecise : Prop :=
  ∀ s t : State, s.runState = .running → step s = .next t → t.runState = .faulted →
    KeepsData s t ∧ (t.fault.kind = .outOfBounds → t.pc = s.pc) ∧
    (t.fault.kind ≠ .outOfBounds → t.pc.toNat = s.pc.toNat + 2) ∧
    (t.fault.kind ≠ .unknownOpcode → t.fault.word = 0) ∧
    (t.fault.kind = .unknownOpcode → s.fetch = some t.fault.word)

/-- R15: where `pc` is after a step, for every instruction (`pcAfter`; JP V0 wraps by D2, log 5, and the two faulting forms
stay at the next address by D3, log 6). -/
def Obligations.PcAfterAStep : Prop :=
  ∀ (s t : State) (w : Word) (i : Instr), s.runState = .running → s.fetch = some w → decodeWord w = .instr i →
    step s = .next t → t.pc.toNat = pcAfter i s

/-- R73, R35: a step reads no byte of memory but the two at `pc`: with any other memory that agrees on those two, it does
the same. -/
def Obligations.StepReadsOnlyTheTwoFetchedBytes : Prop :=
  ∀ (s t : State) (m : Memory), m.read s.pc.toNat = s.mem.read s.pc.toNat →
    m.read (s.pc.toNat + 1) = s.mem.read (s.pc.toNat + 1) → step s = .next t →
    step { s with mem := m } = .next { t with mem := m }

/-! ### The decoder -/

/-- Words of spec/95_test_vectors.md section 2.2 and what they decode to. -/
def Obligations.SpecWordsDecodeToTheirInstructions : Prop :=
  decodeWord 0x0000 = .instr .halt ∧ decodeWord 0x00EE = .instr .ret ∧ decodeWord 0x1234 = .instr (.jp 0x234) ∧
  decodeWord 0x2ABC = .instr (.call 0xABC) ∧ decodeWord 0x3A7F = .instr (.seImm 0xA 0x7F) ∧
  decodeWord 0x9AB0 = .instr (.sneReg 0xA 0xB) ∧ decodeWord 0x7DFF = .instr (.addImm 0xD 0xFF) ∧
  decodeWord 0x8AB6 = .instr (.shr 0xA 0xB) ∧ decodeWord 0xBFFF = .instr (.jpV0 0xFFF) ∧
  decodeWord 0x8ABD = .unknown 0x8ABD

/-- Encoding then decoding gives every instruction back, with every operand: no bit of an encoding is dropped. -/
def Obligations.DecodeOfEncodeIsTheInstruction : Prop :=
  ∀ i : Instr, decodeWord (encode i) = .instr i

/-- Decoding then encoding gives the word back, so one word has one meaning and one instruction one word. -/
def Obligations.EncodeOfDecodeIsTheWord : Prop :=
  ∀ (w : Word) (i : Instr), decodeWord w = .instr i → encode i = w

/-- R54, R55: the decoder answers an instruction of a row exactly for the words that row's mask and match select, and every
word no row selects is unknown and carried whole (the selector must match exactly: D6, log 7). -/
def Obligations.DecoderAcceptsExactlyTheOpcodeMap : Prop :=
  ∀ w : Word, (∀ r ∈ opcodeMap, (w &&& r.mask = r.pattern ↔ ∃ i : Instr, i.row = r ∧ decodeWord w = .instr i)) ∧
    ((∀ r ∈ opcodeMap, w &&& r.mask ≠ r.pattern) ↔ decodeWord w = .unknown w)

/-- R56: the unknown space, class by class (D5, D6, log 7). -/
def Obligations.UnknownSpaceClassByClass : Prop :=
  ∀ w : Word, decodeWord w = .unknown w ↔
    ((w.toNat / 4096 = 0 ∧ w ≠ 0x0000 ∧ w ≠ 0x00EE) ∨
      ((w.toNat / 4096 = 5 ∨ w.toNat / 4096 = 9) ∧ w.toNat % 16 ≠ 0) ∨
      (w.toNat / 4096 = 8 ∧ (8 ≤ w.toNat % 16 ∧ w.toNat % 16 ≠ 14)) ∨
      w.toNat / 4096 = 10 ∨ 12 ≤ w.toNat / 4096)

/-- R58: the `y` field of SHR and SHL has no effect, and no other bit of any instruction's word is ignored: two words that
decode to one instruction are one word. -/
def Obligations.OnlyTheShiftsIgnoreBits : Prop :=
  (∀ (x y y' : RegIx) (s : State), exec (.shr x y) s = exec (.shr x y') s ∧ exec (.shl x y) s = exec (.shl x y') s) ∧
  ∀ (w w' : Word) (i : Instr), decodeWord w = .instr i → decodeWord w' = .instr i → w = w'

/-- R60: the written form of an instruction assembles to it, with `y = 0` for SHR and SHL (D17, log 23). -/
def Obligations.WrittenFormAssemblesBack : Prop :=
  ∀ i : Instr, i.written.instr? = some (match i with
    | .shr x _ => .shr x 0
    | .shl x _ => .shl x 0
    | j => j)

/-! ### Instructions: result, completion and frame -/

/-- R78. -/
def Obligations.HaltStopsTheRunLoop : Prop :=
  WordOf .halt 0x0000 ∧ (∀ n < 65536, decodeWord (BitVec.ofNat 16 n) = .instr .halt → n = 0) ∧
  ∀ s : State, ∃ t, exec .halt s = .next t ∧ t.runState = .halted ∧ t.pc = s.pc ∧ t.fault = s.fault ∧ KeepsData s t

/-- R90: RET pops into `pc`; the popped entry stays (D22, log 19). On an empty stack it faults and leaves `pc` at the next
address (R142; D3, log 6). -/
def Obligations.RetPopsTheReturnAddress : Prop :=
  WordOf .ret 0x00EE ∧ ∀ s : State,
    (∀ d : Fin 16, s.sp.val = d.val + 1 → ∃ t, exec .ret s = .next t ∧ t.pc = s.stack[d] ∧ t.sp.val = d.val ∧
      (∀ i : Fin 16, t.stack[i] = s.stack[i]) ∧ (∀ r, t.reg r = s.reg r) ∧ (∀ a, t.mem.read a = s.mem.read a) ∧
      t.runState = s.runState ∧ t.fault = s.fault) ∧
    (s.sp.val = 0 → ∃ t, exec .ret s = .next t ∧ t.runState = .faulted ∧ t.fault = ⟨.stackUnderflow, 0⟩ ∧
      t.pc = s.pc ∧ KeepsData s t)

/-- R91. -/
def Obligations.JpLoadsTheAddress : Prop :=
  ∀ nnn : Addr, WordOf (.jp nnn) (0x1000 + nnn.toNat) ∧
    ∀ s : State, ∃ t, exec (.jp nnn) s = .next t ∧ t.pc.toNat = nnn.toNat ∧ KeepsBut [] s t

/-- R92: the target is V0 + nnn, reduced modulo 4096, which is the spec's own decision D2 (log 5). -/
def Obligations.JpV0AddsV0AndWraps : Prop :=
  ∀ nnn : Addr, WordOf (.jpV0 nnn) (0xB000 + nnn.toNat) ∧
    ∀ s : State, ∃ t, exec (.jpV0 nnn) s = .next t ∧ t.pc.toNat = ((s.reg 0).toNat + nnn.toNat) % 4096 ∧
      KeepsBut [] s t

/-- R93: CALL pushes the advanced `pc` at the old `sp` and jumps. On a full stack it faults, writes nothing and leaves `pc`
at the next address (R141; D3, log 6). -/
def Obligations.CallPushesTheNextAddress : Prop :=
  ∀ nnn : Addr, WordOf (.call nnn) (0x2000 + nnn.toNat) ∧ ∀ s : State,
    (∀ d : Fin 16, s.sp.val = d.val → ∃ t, exec (.call nnn) s = .next t ∧ t.pc.toNat = nnn.toNat ∧
      t.sp.val = d.val + 1 ∧ t.stack[d] = s.pc ∧ (∀ i : Fin 16, i ≠ d → t.stack[i] = s.stack[i]) ∧
      (∀ r, t.reg r = s.reg r) ∧ (∀ a, t.mem.read a = s.mem.read a) ∧ t.runState = s.runState ∧ t.fault = s.fault) ∧
    (s.sp.val = 16 → ∃ t, exec (.call nnn) s = .next t ∧ t.runState = .faulted ∧ t.fault = ⟨.stackOverflow, 0⟩ ∧
      t.pc = s.pc ∧ KeepsData s t)

/-- R100 to R104: the four skips. With `pc = A + 2` on entry, a taken skip leaves `A + 4` and one not taken `A + 2`. Nothing
else changes, and the effect does not depend on memory: the skipped word is not looked at. -/
def Obligations.SkipsAddTwoWhenTheConditionHolds : Prop :=
  ∀ (x y : RegIx) (kk : Byte),
    WordOf (.seImm x kk) (0x3000 + x.val * 256 + kk.toNat) ∧ WordOf (.sneImm x kk) (0x4000 + x.val * 256 + kk.toNat) ∧
    WordOf (.seReg x y) (0x5000 + x.val * 256 + y.val * 16) ∧ WordOf (.sneReg x y) (0x9000 + x.val * 256 + y.val * 16) ∧
    ∀ (s : State) (A : Word), s.pc = A + 2 →
      (∃ t, exec (.seImm x kk) s = .next t ∧ t.pc = (if s.reg x = kk then A + 4 else A + 2) ∧ KeepsBut [] s t ∧
        ∀ m, exec (.seImm x kk) { s with mem := m } = .next { t with mem := m }) ∧
      (∃ t, exec (.sneImm x kk) s = .next t ∧ t.pc = (if s.reg x ≠ kk then A + 4 else A + 2) ∧ KeepsBut [] s t ∧
        ∀ m, exec (.sneImm x kk) { s with mem := m } = .next { t with mem := m }) ∧
      (∃ t, exec (.seReg x y) s = .next t ∧ t.pc = (if s.reg x = s.reg y then A + 4 else A + 2) ∧ KeepsBut [] s t ∧
        ∀ m, exec (.seReg x y) { s with mem := m } = .next { t with mem := m }) ∧
      (∃ t, exec (.sneReg x y) s = .next t ∧ t.pc = (if s.reg x ≠ s.reg y then A + 4 else A + 2) ∧ KeepsBut [] s t ∧
        ∀ m, exec (.sneReg x y) { s with mem := m } = .next { t with mem := m })

/-- R110, for every `x`, VF among them. -/
def Obligations.LdImmLoadsTheByte : Prop :=
  ∀ (x : RegIx) (kk : Byte), WordOf (.ldImm x kk) (0x6000 + x.val * 256 + kk.toNat) ∧
    ∀ s : State, ∃ t, exec (.ldImm x kk) s = .next t ∧ t.reg x = kk ∧ t.pc = s.pc ∧ KeepsBut [x] s t

/-- R111: the wrapped sum, and VF untouched unless it is the destination. -/
def Obligations.AddImmWrapsAndLeavesTheFlag : Prop :=
  ∀ (x : RegIx) (kk : Byte), WordOf (.addImm x kk) (0x7000 + x.val * 256 + kk.toNat) ∧
    ∀ s : State, ∃ t, exec (.addImm x kk) s = .next t ∧ (t.reg x).toNat = ((s.reg x).toNat + kk.toNat) % 256 ∧
      t.pc = s.pc ∧ KeepsBut [x] s t

/-- R121 to R124: LD reg, OR, AND, XOR write `V[x]` and nothing else, VF included unless `x` is VF (D26,
log 21). -/
def Obligations.CopyAndLogicWriteOnlyVx : Prop :=
  ∀ x y : RegIx,
    WordOf (.ldReg x y) (0x8000 + x.val * 256 + y.val * 16) ∧ WordOf (.or x y) (0x8001 + x.val * 256 + y.val * 16) ∧
    WordOf (.and x y) (0x8002 + x.val * 256 + y.val * 16) ∧ WordOf (.xor x y) (0x8003 + x.val * 256 + y.val * 16) ∧
    ∀ s : State,
      (∃ t, exec (.ldReg x y) s = .next t ∧ t.reg x = s.reg y ∧ t.pc = s.pc ∧ KeepsBut [x] s t) ∧
      (∃ t, exec (.or x y) s = .next t ∧ t.reg x = s.reg x ||| s.reg y ∧ t.pc = s.pc ∧ KeepsBut [x] s t) ∧
      (∃ t, exec (.and x y) s = .next t ∧ t.reg x = s.reg x &&& s.reg y ∧ t.pc = s.pc ∧ KeepsBut [x] s t) ∧
      (∃ t, exec (.xor x y) s = .next t ∧ t.reg x = s.reg x ^^^ s.reg y ∧ t.pc = s.pc ∧ KeepsBut [x] s t)

/-- R125: the wrapped sum in `V[x]` unless `x` is VF, and VF is 1 exactly when the exact sum exceeds 255, also when `x` or
`y` is VF. -/
def Obligations.AddRegAddsAndWritesTheCarry : Prop :=
  ∀ x y : RegIx, WordOf (.addReg x y) (0x8004 + x.val * 256 + y.val * 16) ∧
    ∀ s : State, ∃ t, exec (.addReg x y) s = .next t ∧
      (x ≠ 15 → (t.reg x).toNat = ((s.reg x).toNat + (s.reg y).toNat) % 256) ∧
      t.reg 15 = (if (s.reg x).toNat + (s.reg y).toNat > 255 then 1 else 0) ∧ t.pc = s.pc ∧ KeepsBut [x, 15] s t

/-- R126, R128: the difference modulo 256 in `V[x]` unless `x` is VF, and VF is 1 exactly when no borrow occurred. That 1
means no borrow is D8 (log 9); that the flag stays when `x` is VF is D7 (log 8). -/
def Obligations.SubAndSubnSubtractAndWriteNotBorrow : Prop :=
  ∀ x y : RegIx, WordOf (.sub x y) (0x8005 + x.val * 256 + y.val * 16) ∧
    WordOf (.subn x y) (0x8007 + x.val * 256 + y.val * 16) ∧ ∀ s : State,
      (∃ t, exec (.sub x y) s = .next t ∧
        (x ≠ 15 → (t.reg x).toNat = (if (s.reg x).toNat ≥ (s.reg y).toNat then (s.reg x).toNat - (s.reg y).toNat
          else (s.reg x).toNat + 256 - (s.reg y).toNat)) ∧
        t.reg 15 = (if (s.reg x).toNat ≥ (s.reg y).toNat then 1 else 0) ∧ t.pc = s.pc ∧ KeepsBut [x, 15] s t) ∧
      (∃ t, exec (.subn x y) s = .next t ∧
        (x ≠ 15 → (t.reg x).toNat = (if (s.reg y).toNat ≥ (s.reg x).toNat then (s.reg y).toNat - (s.reg x).toNat
          else (s.reg y).toNat + 256 - (s.reg x).toNat)) ∧
        t.reg 15 = (if (s.reg y).toNat ≥ (s.reg x).toNat then 1 else 0) ∧ t.pc = s.pc ∧ KeepsBut [x, 15] s t)

/-- R127, R129: one bit position, logical; VF is the bit that left, exactly 0 or 1. That the flag stays when `x` is VF is D7
(log 8). -/
def Obligations.ShiftsMoveOneBitAndWriteTheBitOut : Prop :=
  ∀ x y : RegIx, WordOf (.shr x y) (0x8006 + x.val * 256 + y.val * 16) ∧
    WordOf (.shl x y) (0x800E + x.val * 256 + y.val * 16) ∧ ∀ s : State,
      (∃ t, exec (.shr x y) s = .next t ∧ (x ≠ 15 → (t.reg x).toNat = (s.reg x).toNat / 2) ∧
        (t.reg 15).toNat = (s.reg x).toNat % 2 ∧ t.pc = s.pc ∧ KeepsBut [x, 15] s t) ∧
      (∃ t, exec (.shl x y) s = .next t ∧ (x ≠ 15 → (t.reg x).toNat = (s.reg x).toNat * 2 % 256) ∧
        (t.reg 15).toNat = (s.reg x).toNat / 128 ∧ t.pc = s.pc ∧ KeepsBut [x, 15] s t)

/-! ### Rules over all instructions -/

/-- R141, R142: CALL on a full stack raises StackOverflow and RET on an empty one StackUnderflow, with `sp` and the stack as
they were, and no other instruction raises either or any other fault. -/
def Obligations.OnlyCallAndRetRaiseStackFaults : Prop :=
  (∀ (nnn : Addr) (s : State), s.sp.val = 16 → ∃ t, exec (.call nnn) s = .next t ∧ t.runState = .faulted ∧
    t.fault.kind = .stackOverflow ∧ t.sp = s.sp ∧ ∀ i : Fin 16, t.stack[i] = s.stack[i]) ∧
  (∀ s : State, s.sp.val = 0 → ∃ t, exec .ret s = .next t ∧ t.runState = .faulted ∧
    t.fault.kind = .stackUnderflow ∧ t.sp = s.sp ∧ ∀ i : Fin 16, t.stack[i] = s.stack[i]) ∧
  ∀ (i : Instr) (s t : State), s.runState = .running → exec i s = .next t → t.runState = .faulted →
    (∃ nnn, i = .call nnn ∧ s.sp.val = 16 ∧ t.fault.kind = .stackOverflow) ∨
    (i = .ret ∧ s.sp.val = 0 ∧ t.fault.kind = .stackUnderflow)

/-- R36: no instruction loads from memory (with any other memory it does the same) or stores to it, and memory changes only
by LOAD and by RESET. -/
def Obligations.NoInstructionTouchesMemory : Prop :=
  (∀ (i : Instr) (s t : State), exec i s = .next t →
    (∀ a, t.mem.read a = s.mem.read a) ∧ ∀ m, exec i { s with mem := m } = .next { t with mem := m }) ∧
  ∀ (tr : Transaction) (s t : State), tr.takes s t → tr ≠ .reset → (∀ base bytes, tr ≠ .load base bytes) →
    t.mem = s.mem

/-- R12, R76: an instruction writes no register but its destination and, for exactly five, VF, which they leave exactly 0 or
1. For SUB, SUBN, SHR and SHL with `x = 0xF` that is D7 (log 8). -/
def Obligations.OnlyNamedRegistersChange : Prop :=
  ∀ (i : Instr) (s t : State), exec i s = .next t →
    (∀ r, i.dest? ≠ some r → (r = 15 → i.writesFlag = false) → t.reg r = s.reg r) ∧
    (i.writesFlag = true → t.reg 15 = 0 ∨ t.reg 15 = 1)

/-- R12: no register is read implicitly. Changing a register that an instruction does not name as a source changes nothing
it does: everything but that register comes out the same, and that register too where the instruction writes it. -/
def Obligations.OnlyNamedRegistersAreRead : Prop :=
  ∀ (i : Instr) (s t t' : State) (r : RegIx) (v : Byte), r ∉ i.sources → exec i s = .next t →
    exec i (s.setReg r v) = .next t' →
    (∀ q, (q ≠ r ∨ i.dest? = some r ∨ (r = 15 ∧ i.writesFlag = true)) → t'.reg q = t.reg q) ∧
    t'.mem = t.mem ∧ t'.pc = t.pc ∧ t'.stack = t.stack ∧ t'.sp = t.sp ∧ t'.runState = t.runState ∧ t'.fault = t.fault

/-- R17: only CALL and RET move `sp`, only CALL writes the stack, and it writes the one entry at the old `sp`. -/
def Obligations.OnlyCallAndRetTouchTheStack : Prop :=
  ∀ (i : Instr) (s t : State), exec i s = .next t →
    (t.sp ≠ s.sp → i = .ret ∨ ∃ nnn, i = .call nnn) ∧
    ∀ j : Fin 16, t.stack[j] ≠ s.stack[j] → (∃ nnn, i = .call nnn) ∧ j.val = s.sp.val

/-! ### Invariants -/

/-- Every step keeps the invariant, from every state that meets it. -/
def Obligations.InvariantKeptByEveryStep : Prop :=
  ∀ s t : State, s.Inv → step s = .next t → t.Inv

/-- R24, R18, R20: every state reachable from reset by any transactions meets the invariant. -/
def Obligations.ReachableStatesMeetTheInvariant : Prop :=
  ∀ s : State, Reachable s → s.Inv

/-- R24: `pc` comes to 4097 or 4098 only by a taken skip fetched at 4093 or 4094. -/
def Obligations.HighPcComesOnlyFromATakenSkip : Prop :=
  ∀ s t : State, s.Inv → s.runState = .running → s.pc.toNat ≤ 4096 → step s = .next t → 4096 < t.pc.toNat →
    (s.pc.toNat = 4093 ∨ s.pc.toNat = 4094) ∧ t.pc.toNat = s.pc.toNat + 4 ∧
    ∃ w i, s.fetch = some w ∧ decodeWord w = .instr i ∧ takenSkip i s

/-! ### Calls -/

/-- R94, the source's round-trip law: a CALL whose target holds a RET comes back to the next address in two steps with `sp`
as it was, at every depth 0 to 15 before the CALL. -/
def Obligations.CallThenRetReturns : Prop :=
  ∀ (s : State) (w : Word) (nnn : Addr), s.runState = .running → s.fetch = some w →
    decodeWord w = .instr (.call nnn) → s.sp.val < 16 → s.mem.readWord? nnn.toNat = some 0x00EE →
    ∃ t, Steps 2 s t ∧ t.pc.toNat = s.pc.toNat + 2 ∧ t.sp = s.sp ∧ t.runState = .running

/-- R94: whatever runs in between, as long as `sp` never falls back to the caller's depth, the RET at depth `d + 1` returns
to the address after the CALL made at depth `d`. -/
def Obligations.BalancedCallReturnsToItsCaller : Prop :=
  ∀ (s c u : State) (w w' : Word) (nnn : Addr) (n : Nat), s.runState = .running → s.fetch = some w →
    decodeWord w = .instr (.call nnn) → s.sp.val < 16 → step s = .next c → Steps n c u →
    (∀ k ≤ n, ∀ v, Steps k c v → s.sp.val < v.sp.val) →
    u.sp.val = s.sp.val + 1 → u.runState = .running → u.fetch = some w' → decodeWord w' = .instr .ret →
    ∃ t, step u = .next t ∧ t.pc.toNat = s.pc.toNat + 2 ∧ t.sp = s.sp

/-- R18: what stack entries at `sp` and above hold is unobservable: two states that differ only there step to states that
differ only there. -/
def Obligations.StaleStackEntriesAreUnobservable : Prop :=
  ∀ s s' t t' : State, SameButStale s s' → step s = .next t → step s' = .next t' → SameButStale t t'

/-! ### The host interface -/

/-- R81: LOAD writes all of its bytes or none; what else it changes is D12 (log 11). -/
def Obligations.LoadWritesAllOrNothing : Prop :=
  ∀ (s : State) (base : Nat) (bytes : List Byte), s.mem.wf = true →
    (base + bytes.length ≤ 4096 → (s.load base bytes).1 = .success ∧
      (∀ k (h : k < bytes.length), (s.load base bytes).2.mem.read (base + k) = bytes[k]) ∧
      (∀ a, (a < base ∨ base + bytes.length ≤ a) → (s.load base bytes).2.mem.read a = s.mem.read a) ∧
      { (s.load base bytes).2 with mem := s.mem } = s) ∧
    (4096 < base + bytes.length → (s.load base bytes).1 = .failure .outOfBounds ∧
      KeepsData s (s.load base bytes).2 ∧ (s.load base bytes).2.pc = s.pc ∧
      (s.runState = .running → (s.load base bytes).2.runState = .faulted ∧
        (s.load base bytes).2.fault = ⟨.outOfBounds, 0⟩) ∧
      (s.runState ≠ .running → (s.load base bytes).2 = s))

/-- R84, R81: a READ of the range a LOAD wrote returns the bytes loaded. -/
def Obligations.LoadedBytesReadBack : Prop :=
  ∀ (s : State) (base : Nat) (bytes : List Byte), s.mem.wf = true → base + bytes.length ≤ 4096 →
    (s.load base bytes).2.readPort (.memory base bytes.length) = some (.memory bytes)

/-- R42: an instruction loaded at `pc` is the one the very next step runs (D21, log 18). -/
def Obligations.NextStepRunsTheLoadedInstruction : Prop :=
  ∀ (s : State) (i : Instr), s.mem.wf = true → s.runState = .running → s.pc.toNat ≤ 4094 →
    step (s.load s.pc.toNat (encodeBytes i)).2 =
      exec i { (s.load s.pc.toNat (encodeBytes i)).2 with pc := s.pc + 2 }

/-- R173: where the two bytes at `pc` are the zeros of unloaded memory, the step halts, past them. -/
def Obligations.UnloadedMemoryHalts : Prop :=
  ∀ s : State, s.runState = .running → s.pc.toNat ≤ 4094 → s.mem.read s.pc.toNat = 0 →
    s.mem.read (s.pc.toNat + 1) = 0 →
    ∃ t, step s = .next t ∧ t.runState = .halted ∧ t.pc.toNat = s.pc.toNat + 2 ∧ t.fault = s.fault ∧ KeepsData s t

/-- R84: what READ answers; a range that leaves memory is refused (D14, log 13). -/
def Obligations.ReadAnswersOrRefuses : Prop :=
  ∀ s : State, (∀ i, s.readPort (.reg i) = some (.reg (s.reg i))) ∧ s.readPort .pc = some (.pc s.pc) ∧
    s.readPort .runState = some (.runState s.runState) ∧ s.readPort .fault = some (.fault s.fault) ∧
    ∀ base len, (base + len ≤ 4096 → ∃ bs : List Byte, s.readPort (.memory base len) = some (.memory bs) ∧
        bs.length = len ∧ ∀ k (h : k < bs.length), bs[k] = s.mem.read (base + k)) ∧
      (4096 < base + len → s.readPort (.memory base len) = none)

/-- R83: RUN_TO_HALT is STEP iterated: with enough fuel it gives the one terminal state the steps reach, and no fuel gives
another (that it is defined by fuel is D23, log 20). -/
def Obligations.RunToHaltIsIteratedStep : Prop :=
  ∀ s t : State, (∀ n, s.runToHalt n = some t → t.terminal ∧ (∃ k ≤ n, Steps k s t) ∧
      ∀ m, n ≤ m → s.runToHalt m = some t) ∧
    ∀ k, Steps k s t → t.terminal → s.runToHalt k = some t

/-- R91, R83: a jump to itself is an endless loop that RUN_TO_HALT never returns from (no limit: D23, log 20). -/
def Obligations.JumpToItselfNeverEnds : Prop :=
  ∀ (s : State) (w : Word) (nnn : Addr), s.runState = .running → s.fetch = some w → decodeWord w = .instr (.jp nnn) →
    nnn.toNat = s.pc.toNat → ∀ n, Steps n s s ∧ s.runToHalt n = none

/-- R72, R149: from Halted or Faulted no transaction but RESET changes the run state or the fault record (D13, log 12). -/
def Obligations.TerminalStateLeftOnlyByReset : Prop :=
  ∀ (tr : Transaction) (s t : State), s.terminal → tr.takes s t → tr ≠ .reset →
    t.runState = s.runState ∧ t.fault = s.fault ∧ t.pc = s.pc ∧ t.V = s.V ∧ t.stack = s.stack ∧ t.sp = s.sp

/-- The model's own (log 2): a word placed by `withFetchWord` is the one the very next step runs, from every state. -/
def Obligations.PlacedWordIsTheNextInstruction : Prop :=
  ∀ (s : State) (w : Nat) (i : Instr), s.mem.wf = true → decodeTableWord 16 w = some i →
    step (s.withFetchWord 16 w) = exec i (s.withFetchWord 16 w).advancePc ∧ (s.withFetchWord 16 w).V = s.V ∧
      (s.withFetchWord 16 w).stack = s.stack ∧ (s.withFetchWord 16 w).sp = s.sp ∧
      (s.runState = .running → s.pc.toNat ≤ 4094 →
        (s.withFetchWord 16 w).pc = s.pc ∧ (s.withFetchWord 16 w).fault = s.fault)
end

