-- ==== Sys2Proof/Laws/Decode.lean ====
section
/-! SUPPORT. Bytes, fields and the opcode map. -/

namespace Sys2Proof

/-- The word of two bytes, as a number: the byte at the lower address counts 256 (R31, R32). -/
theorem wordOfBytes_toNat (hi lo : Byte) : (wordOfBytes hi lo).toNat = hi.toNat * 256 + lo.toNat := by
  have h1 := hi.isLt
  have h2 := lo.isLt
  have e : wordOfBytes hi lo = hi ++ lo := by
    simpa [wordOfBytes] using (BitVec.setWidth_append_eq_shiftLeft_setWidth_or (b := hi) (b' := lo) (w'' := 16)).symm
  rw [e, BitVec.toNat_append, ← Nat.shiftLeft_add_eq_or_of_lt h2, Nat.shiftLeft_eq]

/-- A word laid out as bytes and read back is the word (R31). -/
@[simp] theorem wordOfBytes_hiByte_loByte (w : Word) : wordOfBytes (hiByte w) (loByte w) = w := by
  apply BitVec.eq_of_toNat_eq
  rw [wordOfBytes_toNat]
  have := w.isLt
  simp only [hiByte, loByte, BitVec.extractLsb'_toNat, Nat.shiftRight_eq_div_pow]
  omega

/-- A word of format A as a number (R52). -/
theorem wordA_toNat (c : BitVec 4) (n : Addr) : (wordA c n).toNat = c.toNat * 4096 + n.toNat := by
  have h := n.isLt
  simp only [wordA, BitVec.toNat_append]
  rw [← Nat.shiftLeft_add_eq_or_of_lt h, Nat.shiftLeft_eq]

/-- A word of format XK as a number (R52). -/
theorem wordXK_toNat (c : BitVec 4) (x : RegIx) (k : Byte) :
    (wordXK c x k).toNat = c.toNat * 4096 + x.val * 256 + k.toNat := by
  have hk := k.isLt
  have hx : x.val < 2 ^ 4 := x.isLt
  simp only [wordXK, BitVec.toNat_append, BitVec.toNat_ofNat, Nat.mod_eq_of_lt hx]
  rw [← Nat.shiftLeft_add_eq_or_of_lt hk, ← Nat.shiftLeft_add_eq_or_of_lt hx, Nat.shiftLeft_eq, Nat.shiftLeft_eq]
  omega

/-- A word of format XY as a number (R52). -/
theorem wordXY_toNat (c : BitVec 4) (x y : RegIx) (n : BitVec 4) :
    (wordXY c x y n).toNat = c.toNat * 4096 + x.val * 256 + y.val * 16 + n.toNat := by
  have hn := n.isLt
  have hx : x.val < 2 ^ 4 := x.isLt
  have hy : y.val < 2 ^ 4 := y.isLt
  simp only [wordXY, BitVec.toNat_append, BitVec.toNat_ofNat, Nat.mod_eq_of_lt hx, Nat.mod_eq_of_lt hy]
  rw [← Nat.shiftLeft_add_eq_or_of_lt hn, ← Nat.shiftLeft_add_eq_or_of_lt hy, ← Nat.shiftLeft_add_eq_or_of_lt hx,
    Nat.shiftLeft_eq, Nat.shiftLeft_eq, Nat.shiftLeft_eq]
  omega

/-- What a class mask keeps of a word of format A (R55). -/
theorem wordA_and_mask (c : BitVec 4) (n : Addr) : wordA c n &&& 0xF000 = wordA c 0 := by
  change (c ++ n) &&& (0xF#4 ++ 0#12) = c ++ 0#12
  rw [BitVec.and_append]
  congr 1
  · exact BitVec.and_allOnes
  · exact BitVec.and_zero

/-- What a class mask keeps of a word of format XK (R55). -/
theorem wordXK_and_mask (c : BitVec 4) (x : RegIx) (k : Byte) : wordXK c x k &&& 0xF000 = wordXK c 0 0 := by
  change (c ++ BitVec.ofNat 4 x.val ++ k) &&& (0xF#4 ++ 0#4 ++ 0#8) = c ++ 0#4 ++ 0#8
  rw [BitVec.and_append, BitVec.and_append]
  congr 1
  · congr 1
    · exact BitVec.and_allOnes
    · exact BitVec.and_zero
  · exact BitVec.and_zero

/-- What a class and selector mask keeps of a word of format XY (R55). -/
theorem wordXY_and_mask (c : BitVec 4) (x y : RegIx) (n : BitVec 4) :
    wordXY c x y n &&& 0xF00F = wordXY c 0 0 n := by
  change (c ++ BitVec.ofNat 4 x.val ++ BitVec.ofNat 4 y.val ++ n) &&& (0xF#4 ++ 0#4 ++ 0#4 ++ 0xF#4)
    = c ++ 0#4 ++ 0#4 ++ n
  rw [BitVec.and_append, BitVec.and_append, BitVec.and_append]
  congr 1
  · congr 1
    · congr 1
      · exact BitVec.and_allOnes
      · exact BitVec.and_zero
    · exact BitVec.and_zero
  · exact BitVec.and_allOnes

/-- The fields of a word as numbers (R51). -/
theorem fieldC_toNat (w : Word) : (fieldC w).toNat = w.toNat / 4096 := by
  have := w.isLt
  simp only [fieldC, BitVec.extractLsb'_toNat, Nat.shiftRight_eq_div_pow]
  omega

theorem fieldX_val (w : Word) : (fieldX w).val = w.toNat / 256 % 16 := by
  simp [fieldX, Nat.shiftRight_eq_div_pow]

theorem fieldY_val (w : Word) : (fieldY w).val = w.toNat / 16 % 16 := by
  simp [fieldY, Nat.shiftRight_eq_div_pow]

theorem fieldN_toNat (w : Word) : (fieldN w).toNat = w.toNat % 16 := by
  simp [fieldN, BitVec.extractLsb'_toNat]

theorem fieldKK_toNat (w : Word) : (fieldKK w).toNat = w.toNat % 256 := by
  simp [fieldKK, BitVec.extractLsb'_toNat]

theorem fieldNNN_toNat (w : Word) : (fieldNNN w).toNat = w.toNat % 4096 := by
  simp [fieldNNN, BitVec.extractLsb'_toNat]

/-- No word selects two rows of the opcode map (R54: "The patterns are pairwise disjoint"): on the bits both masks fix, the
patterns differ. -/
theorem opcodeMap_disjoint :
    opcodeMap.Pairwise fun r r' => r.pattern &&& r'.mask ≠ r'.pattern &&& r.mask := by
  decide

/-- The rows are numbered as the table numbers them (R55). -/
theorem opcodeMap_numbers : opcodeMap.map Row.number = (List.range 20).map (· + 1) := by
  decide

/-- Class, selector and whole-word tests of the decoder as facts about numbers. -/
theorem fieldC_eq_iff (w : Word) (c : BitVec 4) : fieldC w = c ↔ w.toNat / 4096 = c.toNat := by
  rw [← fieldC_toNat, BitVec.toNat_inj]

theorem fieldN_eq_iff (w : Word) (n : BitVec 4) : fieldN w = n ↔ w.toNat % 16 = n.toNat := by
  rw [← fieldN_toNat, BitVec.toNat_inj]

/-- All the decoder can answer for a word, case by case (R54): what `decodesTo` says of `decodeWord`. -/
inductive DecodesTo (w : Word) : Op → Prop where
  | halt (h : w.toNat = 0) : DecodesTo w (.instr .halt)
  | ret (h : w.toNat = 0x00EE) : DecodesTo w (.instr .ret)
  | jp (h : w.toNat / 4096 = 1) : DecodesTo w (.instr (.jp (fieldNNN w)))
  | call (h : w.toNat / 4096 = 2) : DecodesTo w (.instr (.call (fieldNNN w)))
  | seImm (h : w.toNat / 4096 = 3) : DecodesTo w (.instr (.seImm (fieldX w) (fieldKK w)))
  | sneImm (h : w.toNat / 4096 = 4) : DecodesTo w (.instr (.sneImm (fieldX w) (fieldKK w)))
  | seReg (h : w.toNat / 4096 = 5) (hn : w.toNat % 16 = 0) : DecodesTo w (.instr (.seReg (fieldX w) (fieldY w)))
  | ldImm (h : w.toNat / 4096 = 6) : DecodesTo w (.instr (.ldImm (fieldX w) (fieldKK w)))
  | addImm (h : w.toNat / 4096 = 7) : DecodesTo w (.instr (.addImm (fieldX w) (fieldKK w)))
  | ldReg (h : w.toNat / 4096 = 8) (hn : w.toNat % 16 = 0) : DecodesTo w (.instr (.ldReg (fieldX w) (fieldY w)))
  | or (h : w.toNat / 4096 = 8) (hn : w.toNat % 16 = 1) : DecodesTo w (.instr (.or (fieldX w) (fieldY w)))
  | and (h : w.toNat / 4096 = 8) (hn : w.toNat % 16 = 2) : DecodesTo w (.instr (.and (fieldX w) (fieldY w)))
  | xor (h : w.toNat / 4096 = 8) (hn : w.toNat % 16 = 3) : DecodesTo w (.instr (.xor (fieldX w) (fieldY w)))
  | addReg (h : w.toNat / 4096 = 8) (hn : w.toNat % 16 = 4) : DecodesTo w (.instr (.addReg (fieldX w) (fieldY w)))
  | sub (h : w.toNat / 4096 = 8) (hn : w.toNat % 16 = 5) : DecodesTo w (.instr (.sub (fieldX w) (fieldY w)))
  | shr (h : w.toNat / 4096 = 8) (hn : w.toNat % 16 = 6) : DecodesTo w (.instr (.shr (fieldX w) (fieldY w)))
  | subn (h : w.toNat / 4096 = 8) (hn : w.toNat % 16 = 7) : DecodesTo w (.instr (.subn (fieldX w) (fieldY w)))
  | shl (h : w.toNat / 4096 = 8) (hn : w.toNat % 16 = 14) : DecodesTo w (.instr (.shl (fieldX w) (fieldY w)))
  | sneReg (h : w.toNat / 4096 = 9) (hn : w.toNat % 16 = 0) : DecodesTo w (.instr (.sneReg (fieldX w) (fieldY w)))
  | jpV0 (h : w.toNat / 4096 = 11) : DecodesTo w (.instr (.jpV0 (fieldNNN w)))
  | unknown (h : (w.toNat / 4096 = 0 ∧ w.toNat ≠ 0 ∧ w.toNat ≠ 0x00EE) ∨
      ((w.toNat / 4096 = 5 ∨ w.toNat / 4096 = 9) ∧ w.toNat % 16 ≠ 0) ∨
      (w.toNat / 4096 = 8 ∧ 8 ≤ w.toNat % 16 ∧ w.toNat % 16 ≠ 14) ∨
      w.toNat / 4096 = 10 ∨ 12 ≤ w.toNat / 4096) : DecodesTo w (.unknown w)

/-- The decoder answers exactly by the cases of `DecodesTo`. -/
theorem decodesTo (w : Word) : DecodesTo w (decodeWord w) := by
  have hw := w.isLt
  have word : ∀ v : Nat, v < 65536 → (w = BitVec.ofNat 16 v ↔ w.toNat = v) := fun v hv => by
    rw [← BitVec.toNat_inj, BitVec.toNat_ofNat, Nat.mod_eq_of_lt hv]
  have cls : ∀ v : Nat, v < 16 → (fieldC w = BitVec.ofNat 4 v ↔ w.toNat / 4096 = v) := fun v hv => by
    rw [fieldC_eq_iff, BitVec.toNat_ofNat, Nat.mod_eq_of_lt hv]
  have sel : ∀ v : Nat, v < 16 → (fieldN w = BitVec.ofNat 4 v ↔ w.toNat % 16 = v) := fun v hv => by
    rw [fieldN_eq_iff, BitVec.toNat_ofNat, Nat.mod_eq_of_lt hv]
  have e0 := word 0 (by decide)
  have e1 := word 0x00EE (by decide)
  have c1 := cls 1 (by decide)
  have c2 := cls 2 (by decide)
  have c3 := cls 3 (by decide)
  have c4 := cls 4 (by decide)
  have c5 := cls 5 (by decide)
  have c6 := cls 6 (by decide)
  have c7 := cls 7 (by decide)
  have c8 := cls 8 (by decide)
  have c9 := cls 9 (by decide)
  have c11 := cls 11 (by decide)
  have s0 := sel 0 (by decide)
  have s1 := sel 1 (by decide)
  have s2 := sel 2 (by decide)
  have s3 := sel 3 (by decide)
  have s4 := sel 4 (by decide)
  have s5 := sel 5 (by decide)
  have s6 := sel 6 (by decide)
  have s7 := sel 7 (by decide)
  have s14 := sel 14 (by decide)
  unfold decodeWord
  refine iteInduction (fun h => .halt (e0.mp h)) fun h => ?_
  replace e0 := mt e0.mpr h
  refine iteInduction (fun h => .ret (e1.mp h)) fun h => ?_
  replace e1 := mt e1.mpr h
  refine iteInduction (fun h => .jp (c1.mp h)) fun h => ?_
  replace c1 := mt c1.mpr h
  refine iteInduction (fun h => .call (c2.mp h)) fun h => ?_
  replace c2 := mt c2.mpr h
  refine iteInduction (fun h => .seImm (c3.mp h)) fun h => ?_
  replace c3 := mt c3.mpr h
  refine iteInduction (fun h => .sneImm (c4.mp h)) fun h => ?_
  replace c4 := mt c4.mpr h
  refine iteInduction (fun h => .seReg (c5.mp h.1) (s0.mp h.2)) fun h => ?_
  have h5 := mt (And.imp c5.mpr s0.mpr) h
  refine iteInduction (fun h => .ldImm (c6.mp h)) fun h => ?_
  replace c6 := mt c6.mpr h
  refine iteInduction (fun h => .addImm (c7.mp h)) fun h => ?_
  replace c7 := mt c7.mpr h
  refine iteInduction (fun h => ?_) fun h => ?_
  · replace c8 := c8.mp h
    unfold decodeClass8
    refine iteInduction (fun h => .ldReg c8 (s0.mp h)) fun h => ?_
    replace s0 := mt s0.mpr h
    refine iteInduction (fun h => .or c8 (s1.mp h)) fun h => ?_
    replace s1 := mt s1.mpr h
    refine iteInduction (fun h => .and c8 (s2.mp h)) fun h => ?_
    replace s2 := mt s2.mpr h
    refine iteInduction (fun h => .xor c8 (s3.mp h)) fun h => ?_
    replace s3 := mt s3.mpr h
    refine iteInduction (fun h => .addReg c8 (s4.mp h)) fun h => ?_
    replace s4 := mt s4.mpr h
    refine iteInduction (fun h => .sub c8 (s5.mp h)) fun h => ?_
    replace s5 := mt s5.mpr h
    refine iteInduction (fun h => .shr c8 (s6.mp h)) fun h => ?_
    replace s6 := mt s6.mpr h
    refine iteInduction (fun h => .subn c8 (s7.mp h)) fun h => ?_
    replace s7 := mt s7.mpr h
    refine iteInduction (fun h => .shl c8 (s14.mp h)) fun h => ?_
    replace s14 := mt s14.mpr h
    exact .unknown (by omega)
  replace c8 := mt c8.mpr h
  refine iteInduction (fun h => .sneReg (c9.mp h.1) (s0.mp h.2)) fun h => ?_
  have h9 := mt (And.imp c9.mpr s0.mpr) h
  refine iteInduction (fun h => .jpV0 (c11.mp h)) fun h => ?_
  replace c11 := mt c11.mpr h
  exact .unknown (by omega)

end Sys2Proof
end

