-- ==== Sys2Proof/Laws/Memory.lean ====
section
/-! SUPPORT. Memory: the canonical form is kept by every operation, reading after writing, and equal memories are equal
data (log 3). -/

namespace Sys2Proof.Machine

/-- The canonical form from `lo` on is also one from any lower address on. -/
theorem Memory.wfFrom_mono {lo lo' : Nat} (h : lo' ≤ lo) :
    ∀ {m : Memory}, Memory.wfFrom lo m = true → Memory.wfFrom lo' m = true
  | [], _ => rfl
  | (k, c) :: m, hm => by
    simp only [Memory.wfFrom, Bool.and_eq_true, decide_eq_true_eq] at hm ⊢
    exact ⟨⟨⟨by omega, hm.1.1.2⟩, hm.1.2⟩, hm.2⟩

/-- Below its first address a canonical list reads as unlisted. -/
theorem Memory.read_below {a : Nat} :
    ∀ {lo : Nat} {m : Memory}, Memory.wfFrom lo m = true → a < lo → Memory.read m a = Memory.unlisted
  | _, [], _, _ => rfl
  | lo, (k, c) :: m, hm, ha => by
    simp only [Memory.wfFrom, Bool.and_eq_true, decide_eq_true_eq] at hm
    have hk : k ≠ a := by omega
    simpa [Memory.read, hk] using Memory.read_below hm.2 (by omega : a < k + 1)

/-- Placing a byte in front of a list that starts later. -/
theorem Memory.wfFrom_place {lo a : Nat} {b : Byte} {m : Memory} (hlo : lo ≤ a) (ha : a < 4096)
    (hm : Memory.wfFrom (a + 1) m = true) : Memory.wfFrom lo (Memory.place a b m) = true := by
  unfold Memory.place
  split
  · exact Memory.wfFrom_mono (by omega) hm
  · next hb => simp [Memory.wfFrom, hlo, ha, hb, hm]

/-- A write keeps the canonical form. -/
theorem Memory.wfFrom_write {a : Nat} {b : Byte} (ha : a < 4096) :
    ∀ {lo : Nat} {m : Memory}, lo ≤ a → Memory.wfFrom lo m = true → Memory.wfFrom lo (Memory.write m a b) = true
  | lo, [], hlo, _ => Memory.wfFrom_place hlo ha rfl
  | lo, (k, c) :: m, hlo, hm => by
    have hm' := hm
    simp only [Memory.wfFrom, Bool.and_eq_true, decide_eq_true_eq] at hm'
    unfold Memory.write
    split
    · refine Memory.wfFrom_place hlo ha ?_
      simp only [Memory.wfFrom, Bool.and_eq_true, decide_eq_true_eq]
      exact ⟨⟨⟨by omega, hm'.1.1.2⟩, hm'.1.2⟩, hm'.2⟩
    · split
      · next _ hak => subst hak; exact Memory.wfFrom_place hlo ha hm'.2
      · simp only [Memory.wfFrom, Bool.and_eq_true, decide_eq_true_eq]
        exact ⟨hm'.1, Memory.wfFrom_write ha (by omega) hm'.2⟩

/-- A write inside memory keeps the canonical form. -/
theorem Memory.write_wf {m : Memory} {a : Nat} (b : Byte) (hm : m.wf = true) (ha : a < 4096) :
    (m.write a b).wf = true :=
  Memory.wfFrom_write ha (Nat.zero_le _) hm

/-- Writing bytes inside memory keeps the canonical form. -/
theorem Memory.writeBytes_wf :
    ∀ {bs : List Byte} {m : Memory} {a : Nat}, m.wf = true → a + bs.length ≤ 4096 → (m.writeBytes a bs).wf = true
  | [], _, _, hm, _ => hm
  | b :: bs, m, a, hm, h => by
    simp only [List.length_cons] at h
    exact Memory.writeBytes_wf (m := m.write a b) (Memory.write_wf b hm (by omega)) (by omega)

/-- Reading where a byte was placed in front of a list that starts later. -/
theorem Memory.read_place {a : Nat} {b : Byte} {m : Memory} (hm : Memory.wfFrom (a + 1) m = true) (a' : Nat) :
    Memory.read (Memory.place a b m) a' = if a' = a then b else Memory.read m a' := by
  unfold Memory.place
  split
  · next hb =>
    split
    · next h => subst h; rw [hb]; exact Memory.read_below hm (by omega)
    · rfl
  · simp [Memory.read, eq_comm]

/-- Reading after a write, in a canonical list. -/
theorem Memory.read_write_from {a : Nat} {b : Byte} (a' : Nat) :
    ∀ {lo : Nat} {m : Memory}, Memory.wfFrom lo m = true →
      Memory.read (Memory.write m a b) a' = if a' = a then b else Memory.read m a'
  | _, [], _ => Memory.read_place rfl a'
  | lo, (k, c) :: m, hm => by
    have hm' := hm
    simp only [Memory.wfFrom, Bool.and_eq_true, decide_eq_true_eq] at hm'
    unfold Memory.write
    split
    · refine Memory.read_place ?_ a'
      simp only [Memory.wfFrom, Bool.and_eq_true, decide_eq_true_eq]
      exact ⟨⟨⟨by omega, hm'.1.1.2⟩, hm'.1.2⟩, hm'.2⟩
    · split
      · next _ hak =>
        subst hak
        rw [Memory.read_place hm'.2]
        by_cases h : a' = a
        · simp [h]
        · have h' : a ≠ a' := fun e => h e.symm
          simp [Memory.read, h, h']
      · next _ hak =>
        have ih := Memory.read_write_from (a := a) (b := b) a' hm'.2
        by_cases h : k = a'
        · have : a' ≠ a := by omega
          simp [Memory.read, h, this]
        · simp [Memory.read, h, ih]

/-- Reading after a write: the byte written there, what was there elsewhere (R13, R35: plain storage). -/
theorem Memory.read_write {m : Memory} (hm : m.wf = true) (a : Nat) (b : Byte) (a' : Nat) :
    (m.write a b).read a' = if a' = a then b else m.read a' :=
  Memory.read_write_from a' hm

/-- Reading outside the bytes written gives what was there. -/
theorem Memory.read_writeBytes_outside {a' : Nat} :
    ∀ {bs : List Byte} {m : Memory} {a : Nat}, m.wf = true → a + bs.length ≤ 4096 → (a' < a ∨ a + bs.length ≤ a') →
      (m.writeBytes a bs).read a' = m.read a'
  | [], _, _, _, _, _ => rfl
  | b :: bs, m, a, hm, h, h' => by
    simp only [List.length_cons] at h h'
    rw [Memory.writeBytes, Memory.read_writeBytes_outside (Memory.write_wf b hm (by omega)) (by omega) (by omega),
      Memory.read_write hm, if_neg (by omega)]

/-- Reading one of the bytes written gives it. -/
theorem Memory.read_writeBytes_inside :
    ∀ {bs : List Byte} {m : Memory} {a : Nat}, m.wf = true → a + bs.length ≤ 4096 → ∀ k (hk : k < bs.length),
      (m.writeBytes a bs).read (a + k) = bs[k]
  | [], _, _, _, _, _, hk => absurd hk (Nat.not_lt_zero _)
  | b :: bs, m, a, hm, h, 0, _ => by
    simp only [List.length_cons] at h
    rw [Memory.writeBytes, Memory.read_writeBytes_outside (Memory.write_wf b hm (by omega)) (by omega) (by omega),
      Memory.read_write hm]
    simp
  | b :: bs, m, a, hm, h, k + 1, hk => by
    simp only [List.length_cons] at h hk
    rw [show a + (k + 1) = a + 1 + k by omega, Memory.writeBytes,
      Memory.read_writeBytes_inside (Memory.write_wf b hm (by omega)) (by omega) k (by omega)]
    rfl

/-- A range read has the length asked for. -/
@[simp] theorem Memory.length_readBytes (m : Memory) : ∀ a n, (m.readBytes a n).length = n
  | _, 0 => rfl
  | a, n + 1 => by simp [Memory.readBytes, Memory.length_readBytes m (a + 1) n]

/-- The bytes of a range read are the bytes at its addresses. -/
theorem Memory.getElem_readBytes (m : Memory) :
    ∀ a n k (h : k < (m.readBytes a n).length), (m.readBytes a n)[k] = m.read (a + k)
  | _, 0, _, h => absurd h (Nat.not_lt_zero _)
  | _, _ + 1, 0, _ => rfl
  | a, n + 1, k + 1, h => by
    have := Memory.getElem_readBytes m (a + 1) n k (by simpa [Memory.readBytes] using h)
    rw [show a + (k + 1) = a + 1 + k by omega, ← this]
    rfl

/-- The tail of a canonical list reads the same above its head. -/
theorem Memory.read_tail {k : Nat} {c : Byte} {m : Memory} {a : Nat} (h : a ≠ k) :
    Memory.read ((k, c) :: m) a = Memory.read m a := by
  have : k ≠ a := fun e => h e.symm
  simp [Memory.read, this]

/-- Canonical lists that read the same are the same list. -/
theorem Memory.ext_from :
    ∀ {lo : Nat} {m m' : Memory}, Memory.wfFrom lo m = true → Memory.wfFrom lo m' = true →
      (∀ a, Memory.read m a = Memory.read m' a) → m = m'
  | _, [], [], _, _, _ => rfl
  | _, [], (k, c) :: m', _, h', h => by
    simp only [Memory.wfFrom, Bool.and_eq_true, decide_eq_true_eq] at h'
    exact absurd (by simpa [Memory.read] using (h k).symm) h'.1.2
  | _, (k, c) :: m, [], hm, _, h => by
    simp only [Memory.wfFrom, Bool.and_eq_true, decide_eq_true_eq] at hm
    exact absurd (by simpa [Memory.read] using h k) hm.1.2
  | _, (k, c) :: m, (k', c') :: m', hm, h', h => by
    simp only [Memory.wfFrom, Bool.and_eq_true, decide_eq_true_eq] at hm h'
    have hk : k = k' := by
      rcases Nat.lt_trichotomy k k' with hlt | heq | hgt
      · have e := h k
        rw [Memory.read_tail (by omega : k ≠ k'), Memory.read_below h'.2 (by omega : k < k' + 1)] at e
        exact absurd (by simpa [Memory.read] using e) hm.1.2
      · exact heq
      · have e := h k'
        rw [Memory.read_tail (by omega : k' ≠ k), Memory.read_below hm.2 (by omega : k' < k + 1)] at e
        exact absurd (by simpa [Memory.read] using e.symm) h'.1.2
    subst hk
    have hc : c = c' := by simpa [Memory.read] using h k
    subst hc
    congr 1
    refine Memory.ext_from hm.2 h'.2 fun a => ?_
    by_cases ha : a = k
    · subst ha
      rw [Memory.read_below hm.2 (by omega), Memory.read_below h'.2 (by omega)]
    · have e := h a
      rwa [Memory.read_tail ha, Memory.read_tail ha] at e

/-- Equal memories are equal data. -/
theorem Memory.ext {m m' : Memory} (hm : m.wf = true) (hm' : m'.wf = true) (h : ∀ a, m.read a = m'.read a) : m = m' :=
  Memory.ext_from hm hm' h

end Sys2Proof.Machine
end

