-- ==== Sys2Proof/Laws/PerInstr.lean ====
section
/-! SUPPORT. Two families of statements about every instruction as syntax. RowMatch: the encoded word is one its row of the
opcode map selects (R55). WellWritten: the written form of an instruction is well formed (R60). -/

namespace Sys2Proof.Laws

/-- The encoded word, under its row's mask, is its row's pattern (R55). -/
def RowMatch.Statement (i : Instr) : Prop := encode i &&& i.row.mask = i.row.pattern

theorem RowMatch.halt : RowMatch.Statement .halt := rfl
theorem RowMatch.ret : RowMatch.Statement .ret := rfl
theorem RowMatch.jp (nnn : Addr) : RowMatch.Statement (.jp nnn) := wordA_and_mask _ _
theorem RowMatch.jpV0 (nnn : Addr) : RowMatch.Statement (.jpV0 nnn) := wordA_and_mask _ _
theorem RowMatch.call (nnn : Addr) : RowMatch.Statement (.call nnn) := wordA_and_mask _ _
theorem RowMatch.seImm (x : RegIx) (kk : Byte) : RowMatch.Statement (.seImm x kk) := wordXK_and_mask _ _ _
theorem RowMatch.sneImm (x : RegIx) (kk : Byte) : RowMatch.Statement (.sneImm x kk) := wordXK_and_mask _ _ _
theorem RowMatch.seReg (x y : RegIx) : RowMatch.Statement (.seReg x y) := wordXY_and_mask _ _ _ _
theorem RowMatch.sneReg (x y : RegIx) : RowMatch.Statement (.sneReg x y) := wordXY_and_mask _ _ _ _
theorem RowMatch.ldImm (x : RegIx) (kk : Byte) : RowMatch.Statement (.ldImm x kk) := wordXK_and_mask _ _ _
theorem RowMatch.addImm (x : RegIx) (kk : Byte) : RowMatch.Statement (.addImm x kk) := wordXK_and_mask _ _ _
theorem RowMatch.ldReg (x y : RegIx) : RowMatch.Statement (.ldReg x y) := wordXY_and_mask _ _ _ _
theorem RowMatch.or (x y : RegIx) : RowMatch.Statement (.or x y) := wordXY_and_mask _ _ _ _
theorem RowMatch.and (x y : RegIx) : RowMatch.Statement (.and x y) := wordXY_and_mask _ _ _ _
theorem RowMatch.xor (x y : RegIx) : RowMatch.Statement (.xor x y) := wordXY_and_mask _ _ _ _
theorem RowMatch.addReg (x y : RegIx) : RowMatch.Statement (.addReg x y) := wordXY_and_mask _ _ _ _
theorem RowMatch.sub (x y : RegIx) : RowMatch.Statement (.sub x y) := wordXY_and_mask _ _ _ _
theorem RowMatch.shr (x y : RegIx) : RowMatch.Statement (.shr x y) := wordXY_and_mask _ _ _ _
theorem RowMatch.subn (x y : RegIx) : RowMatch.Statement (.subn x y) := wordXY_and_mask _ _ _ _
theorem RowMatch.shl (x y : RegIx) : RowMatch.Statement (.shl x y) := wordXY_and_mask _ _ _ _

/-- An index in range is a well-formed register operand (R7). -/
@[simp] theorem regOperand?_val (x : RegIx) : regOperand? x.val = some x := by
  simp [regOperand?]

/-- A byte is a well-formed byte operand. -/
@[simp] theorem byteOperand?_toNat (k : Byte) : byteOperand? k.toNat = some k := by
  have := k.isLt
  simp only [byteOperand?, BitVec.ofNat_toNat, BitVec.setWidth_eq, ite_eq_left_iff]
  omega

/-- A 12-bit address is a well-formed address operand. -/
@[simp] theorem addrOperand?_toNat (n : Addr) : addrOperand? n.toNat = some n := by
  have := n.isLt
  simp only [addrOperand?, BitVec.ofNat_toNat, BitVec.setWidth_eq, ite_eq_left_iff]
  omega

/-- The written form of an instruction passes the check (R60). -/
def WellWritten.Statement (i : Instr) : Prop := i.written.wellFormed = true

theorem WellWritten.halt : WellWritten.Statement .halt := rfl
theorem WellWritten.ret : WellWritten.Statement .ret := rfl
theorem WellWritten.jp (nnn : Addr) : WellWritten.Statement (.jp nnn) := by
  simp [WellWritten.Statement, Written.wellFormed, Instr.written, Written.instr?]
theorem WellWritten.jpV0 (nnn : Addr) : WellWritten.Statement (.jpV0 nnn) := by
  simp [WellWritten.Statement, Written.wellFormed, Instr.written, Written.instr?]
theorem WellWritten.call (nnn : Addr) : WellWritten.Statement (.call nnn) := by
  simp [WellWritten.Statement, Written.wellFormed, Instr.written, Written.instr?]
theorem WellWritten.seImm (x : RegIx) (kk : Byte) : WellWritten.Statement (.seImm x kk) := by
  simp [WellWritten.Statement, Written.wellFormed, Instr.written, Written.instr?, regByte?]
theorem WellWritten.sneImm (x : RegIx) (kk : Byte) : WellWritten.Statement (.sneImm x kk) := by
  simp [WellWritten.Statement, Written.wellFormed, Instr.written, Written.instr?, regByte?]
theorem WellWritten.seReg (x y : RegIx) : WellWritten.Statement (.seReg x y) := by
  simp [WellWritten.Statement, Written.wellFormed, Instr.written, Written.instr?, regReg?]
theorem WellWritten.sneReg (x y : RegIx) : WellWritten.Statement (.sneReg x y) := by
  simp [WellWritten.Statement, Written.wellFormed, Instr.written, Written.instr?, regReg?]
theorem WellWritten.ldImm (x : RegIx) (kk : Byte) : WellWritten.Statement (.ldImm x kk) := by
  simp [WellWritten.Statement, Written.wellFormed, Instr.written, Written.instr?, regByte?]
theorem WellWritten.addImm (x : RegIx) (kk : Byte) : WellWritten.Statement (.addImm x kk) := by
  simp [WellWritten.Statement, Written.wellFormed, Instr.written, Written.instr?, regByte?]
theorem WellWritten.ldReg (x y : RegIx) : WellWritten.Statement (.ldReg x y) := by
  simp [WellWritten.Statement, Written.wellFormed, Instr.written, Written.instr?, regReg?]
theorem WellWritten.or (x y : RegIx) : WellWritten.Statement (.or x y) := by
  simp [WellWritten.Statement, Written.wellFormed, Instr.written, Written.instr?, regReg?]
theorem WellWritten.and (x y : RegIx) : WellWritten.Statement (.and x y) := by
  simp [WellWritten.Statement, Written.wellFormed, Instr.written, Written.instr?, regReg?]
theorem WellWritten.xor (x y : RegIx) : WellWritten.Statement (.xor x y) := by
  simp [WellWritten.Statement, Written.wellFormed, Instr.written, Written.instr?, regReg?]
theorem WellWritten.addReg (x y : RegIx) : WellWritten.Statement (.addReg x y) := by
  simp [WellWritten.Statement, Written.wellFormed, Instr.written, Written.instr?, regReg?]
theorem WellWritten.sub (x y : RegIx) : WellWritten.Statement (.sub x y) := by
  simp [WellWritten.Statement, Written.wellFormed, Instr.written, Written.instr?, regReg?]
theorem WellWritten.shr (x y : RegIx) : WellWritten.Statement (.shr x y) := by
  simp [WellWritten.Statement, Written.wellFormed, Instr.written, Written.instr?, regReg?, regOperand?]
theorem WellWritten.subn (x y : RegIx) : WellWritten.Statement (.subn x y) := by
  simp [WellWritten.Statement, Written.wellFormed, Instr.written, Written.instr?, regReg?]
theorem WellWritten.shl (x y : RegIx) : WellWritten.Statement (.shl x y) := by
  simp [WellWritten.Statement, Written.wellFormed, Instr.written, Written.instr?, regReg?, regOperand?]

end Sys2Proof.Laws
end

