-- ==== Sys2Proof/Laws/State.lean ====
section
/-! SUPPORT. One lemma per field per update of the state, so that no later proof unfolds a record update, and one lemma per
shared operation that says all it can do. -/

namespace Sys2Proof.Machine

/-! ### setReg -/

@[simp] theorem State.setReg_mem (s : State) (i : RegIx) (v : Byte) : (s.setReg i v).mem = s.mem := rfl
@[simp] theorem State.setReg_pc (s : State) (i : RegIx) (v : Byte) : (s.setReg i v).pc = s.pc := rfl
@[simp] theorem State.setReg_stack (s : State) (i : RegIx) (v : Byte) : (s.setReg i v).stack = s.stack := rfl
@[simp] theorem State.setReg_sp (s : State) (i : RegIx) (v : Byte) : (s.setReg i v).sp = s.sp := rfl
@[simp] theorem State.setReg_runState (s : State) (i : RegIx) (v : Byte) :
    (s.setReg i v).runState = s.runState := rfl
@[simp] theorem State.setReg_fault (s : State) (i : RegIx) (v : Byte) : (s.setReg i v).fault = s.fault := rfl

/-- Reading a register after writing one: the value written, or what was there (R11: no aliases, none hardwired). -/
theorem State.reg_setReg (s : State) (i j : RegIx) (v : Byte) :
    (s.setReg i v).reg j = if j = i then v else s.reg j := by
  obtain ⟨i, hi⟩ := i
  obtain ⟨j, hj⟩ := j
  simp [State.reg, State.setReg, Vector.getElem_set, eq_comm]

@[simp] theorem State.reg_setReg_self (s : State) (i : RegIx) (v : Byte) : (s.setReg i v).reg i = v := by
  simp [State.reg_setReg]

theorem State.reg_setReg_of_ne (s : State) {i j : RegIx} (v : Byte) (h : j ≠ i) :
    (s.setReg i v).reg j = s.reg j := by
  simp [State.reg_setReg, h]

/-! ### setPc, advancePc, skipIf -/

@[simp] theorem State.setPc_V (s : State) (t : Word) : (s.setPc t).V = s.V := rfl
@[simp] theorem State.setPc_reg (s : State) (t : Word) (i : RegIx) : (s.setPc t).reg i = s.reg i := rfl
@[simp] theorem State.setPc_mem (s : State) (t : Word) : (s.setPc t).mem = s.mem := rfl
@[simp] theorem State.setPc_pc (s : State) (t : Word) : (s.setPc t).pc = t := rfl
@[simp] theorem State.setPc_stack (s : State) (t : Word) : (s.setPc t).stack = s.stack := rfl
@[simp] theorem State.setPc_sp (s : State) (t : Word) : (s.setPc t).sp = s.sp := rfl
@[simp] theorem State.setPc_runState (s : State) (t : Word) : (s.setPc t).runState = s.runState := rfl
@[simp] theorem State.setPc_fault (s : State) (t : Word) : (s.setPc t).fault = s.fault := rfl

@[simp] theorem State.advancePc_V (s : State) : s.advancePc.V = s.V := rfl
@[simp] theorem State.advancePc_reg (s : State) (i : RegIx) : s.advancePc.reg i = s.reg i := rfl
@[simp] theorem State.advancePc_mem (s : State) : s.advancePc.mem = s.mem := rfl
@[simp] theorem State.advancePc_pc (s : State) : s.advancePc.pc = s.pc + 2 := rfl
@[simp] theorem State.advancePc_stack (s : State) : s.advancePc.stack = s.stack := rfl
@[simp] theorem State.advancePc_sp (s : State) : s.advancePc.sp = s.sp := rfl
@[simp] theorem State.advancePc_runState (s : State) : s.advancePc.runState = s.runState := rfl
@[simp] theorem State.advancePc_fault (s : State) : s.advancePc.fault = s.fault := rfl

@[simp] theorem State.skipIf_V (s : State) (c : Bool) : (s.skipIf c).V = s.V := by cases c <;> rfl
@[simp] theorem State.skipIf_reg (s : State) (c : Bool) (i : RegIx) : (s.skipIf c).reg i = s.reg i := by
  cases c <;> rfl
@[simp] theorem State.skipIf_mem (s : State) (c : Bool) : (s.skipIf c).mem = s.mem := by cases c <;> rfl
@[simp] theorem State.skipIf_pc (s : State) (c : Bool) : (s.skipIf c).pc = if c then s.pc + 2 else s.pc := by
  cases c <;> rfl
@[simp] theorem State.skipIf_stack (s : State) (c : Bool) : (s.skipIf c).stack = s.stack := by cases c <;> rfl
@[simp] theorem State.skipIf_sp (s : State) (c : Bool) : (s.skipIf c).sp = s.sp := by cases c <;> rfl
@[simp] theorem State.skipIf_runState (s : State) (c : Bool) : (s.skipIf c).runState = s.runState := by
  cases c <;> rfl
@[simp] theorem State.skipIf_fault (s : State) (c : Bool) : (s.skipIf c).fault = s.fault := by cases c <;> rfl

/-! ### raise and halt -/

@[simp] theorem State.raise_V (s : State) (k : FaultKind) (w : Word) : (s.raise k w).V = s.V := rfl
@[simp] theorem State.raise_reg (s : State) (k : FaultKind) (w : Word) (i : RegIx) :
    (s.raise k w).reg i = s.reg i := rfl
@[simp] theorem State.raise_mem (s : State) (k : FaultKind) (w : Word) : (s.raise k w).mem = s.mem := rfl
@[simp] theorem State.raise_pc (s : State) (k : FaultKind) (w : Word) : (s.raise k w).pc = s.pc := rfl
@[simp] theorem State.raise_stack (s : State) (k : FaultKind) (w : Word) : (s.raise k w).stack = s.stack := rfl
@[simp] theorem State.raise_sp (s : State) (k : FaultKind) (w : Word) : (s.raise k w).sp = s.sp := rfl
@[simp] theorem State.raise_runState (s : State) (k : FaultKind) (w : Word) :
    (s.raise k w).runState = .faulted := rfl
@[simp] theorem State.raise_fault (s : State) (k : FaultKind) (w : Word) :
    (s.raise k w).fault = ⟨k, if k = .unknownOpcode then w else 0⟩ := rfl

@[simp] theorem State.halt_V (s : State) : s.halt.V = s.V := rfl
@[simp] theorem State.halt_reg (s : State) (i : RegIx) : s.halt.reg i = s.reg i := rfl
@[simp] theorem State.halt_mem (s : State) : s.halt.mem = s.mem := rfl
@[simp] theorem State.halt_pc (s : State) : s.halt.pc = s.pc := rfl
@[simp] theorem State.halt_stack (s : State) : s.halt.stack = s.stack := rfl
@[simp] theorem State.halt_sp (s : State) : s.halt.sp = s.sp := rfl
@[simp] theorem State.halt_runState (s : State) : s.halt.runState = .halted := rfl
@[simp] theorem State.halt_fault (s : State) : s.halt.fault = s.fault := rfl

/-! ### setRegAndFlag -/

@[simp] theorem State.setRegAndFlag_mem (s : State) (x : RegIx) (r f : Byte) :
    (s.setRegAndFlag x r f).mem = s.mem := rfl
@[simp] theorem State.setRegAndFlag_pc (s : State) (x : RegIx) (r f : Byte) :
    (s.setRegAndFlag x r f).pc = s.pc := rfl
@[simp] theorem State.setRegAndFlag_stack (s : State) (x : RegIx) (r f : Byte) :
    (s.setRegAndFlag x r f).stack = s.stack := rfl
@[simp] theorem State.setRegAndFlag_sp (s : State) (x : RegIx) (r f : Byte) :
    (s.setRegAndFlag x r f).sp = s.sp := rfl
@[simp] theorem State.setRegAndFlag_runState (s : State) (x : RegIx) (r f : Byte) :
    (s.setRegAndFlag x r f).runState = s.runState := rfl
@[simp] theorem State.setRegAndFlag_fault (s : State) (x : RegIx) (r f : Byte) :
    (s.setRegAndFlag x r f).fault = s.fault := rfl

/-- Every register after a flag-writing instruction: VF is the flag even when `x` is VF, `V[x]` the result otherwise
(R120). -/
theorem State.reg_setRegAndFlag (s : State) (x j : RegIx) (r f : Byte) :
    (s.setRegAndFlag x r f).reg j = if j = 15 then f else if j = x then r else s.reg j := by
  simp [State.setRegAndFlag, State.reg_setReg]

/-! ### push and pop -/

/-- All a push can do (R17). -/
theorem State.push_cases (s : State) (v : Word) :
    (s.sp.val = 16 ∧ s.push v = .error .stackOverflow) ∨
    (∃ h : s.sp.val < 16, ∃ t, s.push v = .ok t ∧ t.sp.val = s.sp.val + 1 ∧ t.stack = s.stack.set s.sp.val v h ∧
      t.V = s.V ∧ t.mem = s.mem ∧ t.pc = s.pc ∧ t.runState = s.runState ∧ t.fault = s.fault) := by
  by_cases h : s.sp.val < 16
  · exact .inr ⟨h, { s with stack := s.stack.set s.sp.val v h, sp := ⟨s.sp.val + 1, Nat.succ_lt_succ h⟩ },
      by simp [State.push, h], rfl, rfl, rfl, rfl, rfl, rfl, rfl⟩
  · have := s.sp.isLt
    exact .inl ⟨by omega, by simp [State.push, h]⟩

/-- All a pop can do (R17): on success the entry just below `sp` is answered and stays where it is (R18). -/
theorem State.pop_cases (s : State) :
    (s.sp.val = 0 ∧ s.pop = .error .stackUnderflow) ∨
    (∃ h : s.sp.val - 1 < 16, ∃ t, s.pop = .ok (s.stack[s.sp.val - 1], t) ∧ s.sp.val = t.sp.val + 1 ∧
      t.stack = s.stack ∧ t.V = s.V ∧ t.mem = s.mem ∧ t.pc = s.pc ∧ t.runState = s.runState ∧ t.fault = s.fault) := by
  by_cases h : s.sp.val = 0
  · exact .inl ⟨h, by simp [State.pop, h]⟩
  · have hlt := s.sp.isLt
    refine .inr ⟨by omega, { s with sp := ⟨s.sp.val - 1, by omega⟩ }, by simp [State.pop, h], ?_,
      rfl, rfl, rfl, rfl, rfl, rfl⟩
    change s.sp.val = s.sp.val - 1 + 1
    omega

/-! ### Flags and operands -/

/-- Every flag written is exactly 0 or 1 (R130). -/
theorem carryFlag_zero_or_one (a b : Byte) : carryFlag a b = 0 ∨ carryFlag a b = 1 := by
  unfold carryFlag; split <;> simp

/-- Every flag written is exactly 0 or 1 (R130). -/
theorem notBorrowFlag_zero_or_one (a b : Byte) : notBorrowFlag a b = 0 ∨ notBorrowFlag a b = 1 := by
  unfold notBorrowFlag; split <;> simp

/-- Every flag written is exactly 0 or 1 (R130). -/
theorem shiftedOutRight_zero_or_one : ∀ a : Byte, shiftedOutRight a = 0 ∨ shiftedOutRight a = 1 := by
  decide

/-- Every flag written is exactly 0 or 1 (R130). -/
theorem shiftedOutLeft_zero_or_one : ∀ a : Byte, shiftedOutLeft a = 0 ∨ shiftedOutLeft a = 1 := by
  decide

/-- The bit a right shift sends out is the operand mod 2 (R127). -/
theorem shiftedOutRight_toNat (a : Byte) : (shiftedOutRight a).toNat = a.toNat % 2 := by
  simp [shiftedOutRight, Nat.and_one_is_mod]

/-- The bit a left shift sends out says whether the operand is 128 or more (R129). -/
theorem shiftedOutLeft_eq : ∀ a : Byte, shiftedOutLeft a = if a.toNat ≥ 128 then 1 else 0 := by
  decide

/-- A zero-extended address is the same number (R53). -/
@[simp] theorem addrOperand_toNat (nnn : Addr) : (addrOperand nnn).toNat = nnn.toNat := by
  have := nnn.isLt
  simp only [addrOperand, BitVec.toNat_setWidth]
  omega

/-- The target of `JP V0` is the sum modulo 4096 (R92). -/
theorem offsetOperand_toNat (s : State) (nnn : Addr) :
    (offsetOperand s nnn).toNat = ((s.reg 0).toNat + nnn.toNat) % 4096 := by
  have h1 := (s.reg 0).isLt
  have h2 := nnn.isLt
  have mask : Config.jpV0Mask.toNat = 2 ^ 12 - 1 := rfl
  rw [offsetOperand, BitVec.toNat_and, mask, Nat.and_two_pow_sub_one_eq_mod, BitVec.toNat_add, addrOperand_toNat,
    BitVec.toNat_setWidth]
  omega

end Sys2Proof.Machine
end

