-- ==== Sys2Proof/Laws/Step.lean ====
section
/-! SUPPORT. What the fetch, a step and a LOAD can do, each said once. -/

namespace Sys2Proof.Machine

/-- All a fetch can do (R33). -/
theorem State.fetch_cases (s : State) :
    (s.pc.toNat > 4094 ∧ s.fetch = none) ∨
    (s.pc.toNat ≤ 4094 ∧ s.fetch = some (wordOfBytes (s.mem.read s.pc.toNat) (s.mem.read (s.pc.toNat + 1)))) := by
  by_cases h : s.pc.toNat ≤ 4094
  · exact .inr ⟨h, by simp [State.fetch, Memory.readWord?, h]⟩
  · exact .inl ⟨by omega, by simp [State.fetch, Memory.readWord?, h]⟩

/-- The advance of a fetch inside memory does not wrap (R24). -/
theorem State.advancePc_toNat {s : State} (h : s.pc.toNat ≤ 4096) : s.advancePc.pc.toNat = s.pc.toNat + 2 := by
  have h2 : (2 : Word).toNat = 2 := rfl
  rw [State.advancePc_pc, BitVec.toNat_add, h2]
  omega

/-- All a step can do (R71). -/
theorem step_cases {s t : State} (h : step s = .next t) :
    (s.runState ≠ .running ∧ t = s) ∨
    (s.runState = .running ∧ s.fetch = none ∧ t = s.raise .outOfBounds 0) ∨
    (∃ w u, s.runState = .running ∧ s.fetch = some w ∧ decodeWord w = .unknown u ∧
      t = s.advancePc.raise .unknownOpcode u) ∨
    (∃ w i, s.runState = .running ∧ s.fetch = some w ∧ decodeWord w = .instr i ∧ exec i s.advancePc = .next t) := by
  unfold step at h
  split at h
  · next hr => exact .inl ⟨by simp [hr], by injection h with h; exact h.symm⟩
  · next hr => exact .inl ⟨by simp [hr], by injection h with h; exact h.symm⟩
  · next hr =>
    split at h
    · next hf => exact .inr (.inl ⟨hr, hf, by injection h with h; exact h.symm⟩)
    · next w hf =>
      split at h
      · next i hd => exact .inr (.inr (.inr ⟨w, i, hr, hf, hd, h⟩))
      · next u hd =>
        unfold execUnknown at h
        exact .inr (.inr (.inl ⟨w, u, hr, hf, hd, by injection h with h; exact h.symm⟩))

/-- All a LOAD can do (R81). -/
theorem State.load_cases (s : State) (base : Nat) (bytes : List Byte) :
    (base + bytes.length ≤ 4096 ∧
      s.load base bytes = (.success, { s with mem := s.mem.writeBytes base bytes })) ∨
    (base + bytes.length > 4096 ∧ s.runState = .running ∧
      s.load base bytes = (.failure .outOfBounds, s.raise .outOfBounds 0)) ∨
    (base + bytes.length > 4096 ∧ s.runState ≠ .running ∧ s.load base bytes = (.failure .outOfBounds, s)) := by
  by_cases h : base + bytes.length > 4096
  · by_cases hr : s.runState = .running
    · exact .inr (.inl ⟨h, hr, by simp [State.load, h, hr]⟩)
    · exact .inr (.inr ⟨h, hr, by simp [State.load, h, hr]⟩)
  · exact .inl ⟨by omega, by simp [State.load, h]⟩

end Sys2Proof.Machine
end

