-- ==== Sys2Proof/Tests/Slice0.lean ====
section
/-! SUPPORT. Tests. Expected results come from the spec: the numbers S1 to S14 and the sections named are those of
spec/95_test_vectors.md; the words are written out from the opcode map of R55. Each test of an instruction is one step on a
small state. The witnesses at the end show that the statements' hypotheses can be met, at the ends of their ranges. -/

open Sys2Proof Sys2Proof.Machine

namespace Sys2Proof.Tests

/-! ### Well-formedness: an ill-formed term for each check -/

theorem test_register_number_16_refused : (Written.mk .ld [.reg 16, .num 0]).wellFormed = false := by decide
theorem test_second_register_16_refused : (Written.mk .or [.reg 0, .reg 16]).wellFormed = false := by decide
theorem test_byte_256_refused : (Written.mk .ld [.reg 0, .num 256]).wellFormed = false := by decide
theorem test_address_4096_refused : (Written.mk .jp [.num 4096]).wellFormed = false := by decide
theorem test_jp_with_v1_refused : (Written.mk .jp [.reg 1, .num 0x300]).wellFormed = false := by decide
theorem test_or_with_number_refused : (Written.mk .or [.reg 0, .num 3]).wellFormed = false := by decide
theorem test_halt_with_operand_refused : (Written.mk .halt [.num 1]).wellFormed = false := by decide
theorem test_shr_with_two_operands_refused : (Written.mk .shr [.reg 2, .reg 3]).wellFormed = false := by decide
theorem test_largest_operands_accepted :
    (Written.mk .ld [.reg 15, .num 255]).instr? = some (.ldImm 15 0xFF) ∧
    (Written.mk .jp [.num 4095]).instr? = some (.jp 0xFFF) := by decide

/-- R60: `LD VA, 0xFF`, `JP V0, 0x300`, `SHR V2`. -/
theorem test_written_text :
    (Instr.ldImm 0xA 0xFF).written.text = "LD VA, 0xFF" ∧ (Instr.jpV0 0x300).written.text = "JP V0, 0x300" ∧
    (Instr.shr 2 0).written.text = "SHR V2" := by decide

/-! ### Decoding: one word of every row, bit by bit (R52, R55) -/

theorem test_decode_halt : decodeWord 0b0000000000000000 = .instr .halt := by decide
theorem test_decode_ret : decodeWord 0b0000000011101110 = .instr .ret := by decide
theorem test_decode_jp : decodeWord 0b0001001000110100 = .instr (.jp 0x234) := by decide
theorem test_decode_jpV0 : decodeWord 0b1011000100100011 = .instr (.jpV0 0x123) := by decide
theorem test_decode_call : decodeWord 0b0010101010111100 = .instr (.call 0xABC) := by decide
theorem test_decode_seImm : decodeWord 0b0011101001111111 = .instr (.seImm 0xA 0x7F) := by decide
theorem test_decode_sneImm : decodeWord 0b0100101001111111 = .instr (.sneImm 0xA 0x7F) := by decide
theorem test_decode_seReg : decodeWord 0b0101101010110000 = .instr (.seReg 0xA 0xB) := by decide
theorem test_decode_sneReg : decodeWord 0b1001101010110000 = .instr (.sneReg 0xA 0xB) := by decide
theorem test_decode_ldImm : decodeWord 0b0110110000000001 = .instr (.ldImm 0xC 0x01) := by decide
theorem test_decode_addImm : decodeWord 0b0111110111111111 = .instr (.addImm 0xD 0xFF) := by decide
theorem test_decode_ldReg : decodeWord 0b1000101010110000 = .instr (.ldReg 0xA 0xB) := by decide
theorem test_decode_or : decodeWord 0b1000101010110001 = .instr (.or 0xA 0xB) := by decide
theorem test_decode_and : decodeWord 0b1000101010110010 = .instr (.and 0xA 0xB) := by decide
theorem test_decode_xor : decodeWord 0b1000101010110011 = .instr (.xor 0xA 0xB) := by decide
theorem test_decode_addReg : decodeWord 0b1000101010110100 = .instr (.addReg 0xA 0xB) := by decide
theorem test_decode_sub : decodeWord 0b1000101010110101 = .instr (.sub 0xA 0xB) := by decide
theorem test_decode_shr : decodeWord 0b1000101010110110 = .instr (.shr 0xA 0xB) := by decide
theorem test_decode_subn : decodeWord 0b1000101010110111 = .instr (.subn 0xA 0xB) := by decide
theorem test_decode_shl : decodeWord 0b1000101010111110 = .instr (.shl 0xA 0xB) := by decide

/-- Section 2.2: words of no row, one of every class that has any. -/
theorem test_decode_unknown :
    [0x00E0, 0x0001, 0x00EF, 0x0100, 0x5AB1, 0x5ABF, 0x8AB8, 0x8ABD, 0x8ABF, 0x9AB1, 0xA123, 0xC0FF, 0xD123, 0xE09E,
      0xF065, 0xFFFF].all (fun w : Word => decodeWord w == .unknown w) = true := by decide

/-- The host's numbering: bit 0 is the least significant of the word (R6). -/
theorem test_decodeTableWord : decodeTableWord 16 0x8014 = some (.addReg 0 1) ∧ decodeTableWord 16 0x5AB1 = none := by
  decide

theorem test_encode : encode (.sub 0xA 0xB) = 0x8AB5 ∧ encodeBytes (.jp 0x200) = [0x12, 0x00] := by decide

/-! ### One step -/

/-- A running machine with these registers, and these bytes from `pc` on. -/
def machine (regs : List (RegIx × Byte)) (pc : Word) (bytes : List Byte) : State :=
  let s := regs.foldl (fun s r => s.setReg r.1 r.2) State.reset
  { s with pc := pc, mem := s.mem.writeBytes pc.toNat bytes }

/-- The same with return addresses on the stack, the oldest first. -/
def machineWithStack (addresses : List Word) (pc : Word) (bytes : List Byte) : State :=
  addresses.foldl (fun s v => match s.push v with | .ok t => t | .error _ => s) (machine [] pc bytes)

/-- The state after one step. -/
def stepped (s : State) : State := s.afterStep.getD s

/-- `pc`, the run state and the fault record after one step. -/
def outcome (s : State) : Word × RunState × FaultRecord := ((stepped s).pc, (stepped s).runState, (stepped s).fault)

/-- R78: HALT at 0xFFE halts with `pc = 0x1000` (section 2.3). -/
theorem test_halt : outcome (machine [] 0xFFE []) = (0x1000, .halted, ⟨.noFault, 0⟩) := by decide

/-- Section 2.3: RET with `sp = 2`. -/
theorem test_ret : (stepped (machineWithStack [0x0002, 0x0104] 0x100 [0x00, 0xEE])).pc = 0x0104 ∧
    (stepped (machineWithStack [0x0002, 0x0104] 0x100 [0x00, 0xEE])).sp = 1 := by decide

/-- S6, section 2.7: RET on an empty stack. -/
theorem test_ret_underflow : outcome (machine [] 0x100 [0x00, 0xEE]) = (0x102, .faulted, ⟨.stackUnderflow, 0⟩) := by
  decide

theorem test_jp : (stepped (machine [] 0 [0x12, 0x34])).pc = 0x234 := by decide

/-- Section 2.3: the sum 0x10FE wraps to 0x0FE. -/
theorem test_jpV0_wraps : (stepped (machine [(0, 0xFF)] 2 [0xBF, 0xFF])).pc = 0x0FE := by decide
/-- The register is V0, not the one the `x` digit names (R92). -/
theorem test_jpV0_uses_v0 : (stepped (machine [(0, 0x10), (3, 0x55)] 0 [0xB3, 0x00])).pc = 0x310 := by decide

/-- S13, section 2.3: CALL at 0xFFE pushes 0x1000. -/
theorem test_call : (stepped (machine [] 0xFFE [0x21, 0x00])).stack[0] = 0x1000 ∧
    (stepped (machine [] 0xFFE [0x21, 0x00])).pc = 0x100 := by decide

/-- S5: the seventeenth CALL. -/
theorem test_call_overflow : outcome (machineWithStack (List.replicate 16 2) 0x204 [0x2A, 0xBC]) =
    (0x206, .faulted, ⟨.stackOverflow, 0⟩) := by decide

theorem test_seImm : (stepped (machine [(3, 0x2A)] 0x200 [0x33, 0x2A])).pc = 0x204 ∧
    (stepped (machine [(3, 0x2B)] 0x200 [0x33, 0x2A])).pc = 0x202 := by decide
theorem test_sneImm : (stepped (machine [(3, 0x2A)] 0x200 [0x43, 0x2A])).pc = 0x202 ∧
    (stepped (machine [(3, 0x2B)] 0x200 [0x43, 0x2A])).pc = 0x204 := by decide
theorem test_seReg : (stepped (machine [(1, 7), (2, 7)] 0x200 [0x51, 0x20])).pc = 0x204 ∧
    (stepped (machine [(1, 7), (2, 8)] 0x200 [0x51, 0x20])).pc = 0x202 := by decide
theorem test_sneReg : (stepped (machine [(1, 7), (2, 8)] 0x200 [0x91, 0x20])).pc = 0x204 ∧
    (stepped (machine [(1, 7), (2, 7)] 0x200 [0x91, 0x20])).pc = 0x202 := by decide

/-- Section 2.4: a taken skip at 0xFFE leaves 0x1002, still running. -/
theorem test_skip_at_the_end : outcome (machine [] 0xFFE [0x30, 0x00]) = (0x1002, .running, ⟨.noFault, 0⟩) := by decide

theorem test_ldImm : (stepped (machine [] 0 [0x6A, 0xFF])).reg 0xA = 0xFF := by decide

/-- S14: 0xFF + 1 with VF = 1 before. -/
theorem test_addImm : (stepped (machine [(0, 0xFF), (15, 1)] 0 [0x70, 0x01])).reg 0 = 0 ∧
    (stepped (machine [(0, 0xFF), (15, 1)] 0 [0x70, 0x01])).reg 15 = 1 := by decide

/-- Section 2.6, `a` in V0 and `b` in V1, VF = 0x77 before: V0 and VF after the word `80xx`. -/
def alu (a b lo : Byte) : Byte × Byte :=
  let t := stepped (machine [(0, a), (1, b), (15, 0x77)] 0 [0x80, lo])
  (t.reg 0, t.reg 15)

theorem test_ldReg : alu 0x12 0x3C 0x10 = (0x3C, 0x77) := by decide
theorem test_or : alu 0xF0 0x3C 0x11 = (0xFC, 0x77) := by decide
theorem test_and : alu 0xF0 0x3C 0x12 = (0x30, 0x77) := by decide
theorem test_xor : alu 0xF0 0x3C 0x13 = (0xCC, 0x77) := by decide
theorem test_addReg : alu 5 10 0x14 = (15, 0) ∧ alu 0xFF 0xFF 0x14 = (0xFE, 1) ∧ alu 0x80 0x7F 0x14 = (0xFF, 0) := by
  decide
theorem test_sub : alu 3 10 0x15 = (0xF9, 0) ∧ alu 7 7 0x15 = (0, 1) := by decide
/-- `81y6` of V1 = 0xF0: SHR reads V0, not V1. -/
theorem test_shr : alu 0x05 0xF0 0x16 = (0x02, 1) ∧ alu 0xFF 0 0x06 = (0x7F, 1) := by decide
theorem test_subn : alu 3 10 0x17 = (7, 1) ∧ alu 10 3 0x17 = (0xF9, 0) := by decide
theorem test_shl : alu 0x81 0 0x0E = (0x02, 1) ∧ alu 0x40 0 0x0E = (0x80, 0) := by decide

/-- Section 2.6, VF as an operand: VF after the word `8Fxx` with V1 = `b`. -/
def aluVF (f b lo : Byte) : Byte := (stepped (machine [(1, b), (15, f)] 0 [0x8F, lo])).reg 15

theorem test_addReg_VF : aluVF 0xC8 0x64 0x14 = 1 ∧ aluVF 0x64 0x64 0x14 = 0 := by decide
theorem test_sub_VF : aluVF 0x05 0x09 0x15 = 0 ∧ aluVF 0x03 0 0xF5 = 1 := by decide
theorem test_subn_VF : aluVF 0x05 0x09 0x17 = 1 := by decide
theorem test_shr_VF : aluVF 0xFE 0 0x06 = 0 ∧ aluVF 0xFF 0 0x06 = 1 := by decide
theorem test_shl_VF : aluVF 0x80 0 0x0E = 1 ∧ aluVF 0x7F 0 0x0E = 0 := by decide

/-! ### Fetch, faults and the host's transactions -/

/-- Section 2.1: an odd address. -/
theorem test_fetch_odd : (machine [] 0x010 [0x12, 0x34, 0x56]).mem.readWord? 0x011 = some 0x3456 := by decide

/-- S7. -/
theorem test_fetch_4095 : outcome (machine [] 0xFFF []) = (0xFFF, .faulted, ⟨.outOfBounds, 0⟩) := by decide

/-- Section 2.7: the word 0xA123. -/
theorem test_unknown : outcome (machine [] 2 [0xA1, 0x23]) = (4, .faulted, ⟨.unknownOpcode, 0xA123⟩) := by decide

/-- Section 2.8. -/
theorem test_load_fails : (State.reset.load 4095 [0x01, 0x02]).1 = .failure .outOfBounds ∧
    (State.reset.load 4095 [0x01, 0x02]).2 = State.reset.raise .outOfBounds 0 := by decide
theorem test_load_in_range : (State.reset.load 4095 [0x01]).2.mem = [(4095, 0x01)] ∧
    (State.reset.load 4096 []).1 = .success ∧ (State.reset.load 4097 []).1 = .failure .outOfBounds := by decide
theorem test_load_when_halted : (State.reset.halt.load 4095 [1, 2]).2 = State.reset.halt := by decide
theorem test_read : (State.reset.load 0x200 [0x12, 0x34]).2.readPort (.memory 0x200 2) = some (.memory [0x12, 0x34]) ∧
    State.reset.readPort (.memory 4090 10) = none := by decide

/-- Section 2.8: a fresh machine halts on its first step, with `pc = 2`; P1's first word, loaded, runs as its first. -/
theorem test_fresh_step : outcome State.reset = (2, .halted, ⟨.noFault, 0⟩) := by decide
theorem test_withFetchWord : (stepped (State.reset.withFetchWord 16 0x610A)).reg 1 = 0x0A := by decide
/-- STEP reports the terminal state and no side effect (R82). -/
theorem test_stepTransaction : (State.reset.stepTransaction.map Prod.fst) = some ⟨.halted, none, .none⟩ := by decide

/-- A write of what an unlisted address reads as takes the entry out; the canonical form is kept. -/
theorem test_memory_canonical : Memory.write [(1, 5), (3, 7)] 1 0 = [(3, 7)] ∧ Memory.wf [(1, 5), (3, 7)] = true ∧
    Memory.wf [(3, 7), (1, 5)] = false ∧ Memory.wf [(1, 0)] = false ∧ Memory.wf [(4096, 1)] = false := by decide

/-! ### Witnesses: the hypotheses of the statements can be met -/

theorem witness_TwoByteReadIsHighByteFirst :
    Memory.readWord? [(4094, 0x12), (4095, 0x34)] 4094 = some 0x1234 ∧ Memory.readWord? [] 4095 = none := by decide

theorem witness_FetchOutsideMemoryFaults :
    (machine [] 4095 []).runState = .running ∧ 4094 < (machine [] 4095 []).pc.toNat := by decide

theorem witness_StepRunsTheDecodedInstruction :
    let s := machine [] 4094 [0x61, 0x07]
    s.runState = .running ∧ s.pc.toNat ≤ 4094 ∧
      decodeBytes (s.mem.read s.pc.toNat) (s.mem.read (s.pc.toNat + 1)) = .instr (.ldImm 1 7) := by decide

theorem witness_UnknownWordFaultsWithTheWord :
    let s := machine [] 4094 [0xFF, 0xFF]
    s.runState = .running ∧ s.fetch = some 0xFFFF ∧ decodeWord 0xFFFF = .unknown 0xFFFF := by decide

theorem witness_TerminalStepChangesNothing :
    State.reset.halt.runState ≠ .running ∧ (State.reset.raise .outOfBounds 0).runState ≠ .running := by decide

/-- The four ways to fault and the one to halt, each from a running machine. -/
theorem witness_WhenAStepHaltsOrFaults :
    (stepped (machine [] 0 [])).runState = .halted ∧ (stepped (machine [] 4095 [])).runState = .faulted ∧
    (stepped (machine [] 0 [0xA0, 0x00])).runState = .faulted ∧ (stepped (machine [] 0 [0x00, 0xEE])).runState = .faulted ∧
    (stepped (machineWithStack (List.replicate 16 2) 0 [0x20, 0x00])).runState = .faulted := by decide

theorem witness_FaultingStepIsPrecise :
    let s := machine [(1, 7)] 4094 [0x00, 0xEE]
    s.runState = .running ∧ step s = .next (stepped s) ∧ (stepped s).runState = .faulted ∧
      (stepped s).fault.kind = .stackUnderflow := ⟨rfl, rfl, rfl, rfl⟩

theorem witness_FaultingStepIsPrecise_other_kinds :
    (stepped (machine [] 4095 [])).fault.kind = .outOfBounds ∧
    (stepped (machine [] 0 [0xA0, 0x00])).fault.kind = .unknownOpcode := by decide

theorem witness_PcAfterAStep :
    let s := machineWithStack [0x0FFF] 4094 [0x00, 0xEE]
    s.runState = .running ∧ s.fetch = some 0x00EE ∧ decodeWord 0x00EE = .instr .ret ∧ step s = .next (stepped s) ∧
      pcAfter .ret s = 0x0FFF := ⟨rfl, rfl, rfl, rfl, rfl⟩

theorem witness_StepReadsOnlyTheTwoFetchedBytes :
    let s := machine [] 2 [0x61, 0x07]
    let m : Memory := [(0, 9), (2, 0x61), (3, 0x07)]
    m ≠ s.mem ∧ m.read s.pc.toNat = s.mem.read s.pc.toNat ∧ m.read (s.pc.toNat + 1) = s.mem.read (s.pc.toNat + 1) ∧
      step s = .next (stepped s) := ⟨by decide, rfl, rfl, rfl⟩

theorem witness_EncodeOfDecodeIsTheWord : decodeWord 0x8FFE = .instr (.shl 15 15) := by decide

theorem witness_DecoderAcceptsExactlyTheOpcodeMap :
    (0x9FF0 : Word) &&& 0xF00F = 0x9000 ∧ (∀ r ∈ opcodeMap, (0xFFFF : Word) &&& r.mask ≠ r.pattern) := by decide

theorem witness_HaltStopsTheRunLoop : decodeWord (BitVec.ofNat 16 0) = .instr .halt := by decide

theorem witness_RetPopsTheReturnAddress :
    (machineWithStack [2] 0 []).sp.val = (0 : Fin 16).val + 1 ∧
    (machineWithStack (List.replicate 16 2) 0 []).sp.val = (15 : Fin 16).val + 1 ∧ State.reset.sp.val = 0 := by decide

theorem witness_CallPushesTheNextAddress :
    State.reset.sp.val = (0 : Fin 16).val ∧ (machineWithStack (List.replicate 15 2) 0 []).sp.val = (15 : Fin 16).val ∧
    (machineWithStack (List.replicate 16 2) 0 []).sp.val = 16 := by decide

theorem witness_SkipsAddTwoWhenTheConditionHolds : (machine [] 0x202 []).pc = 0x200 + 2 := by decide

/-- The flag-writing statements at `x` other than VF and at `x` = VF. -/
theorem witness_flag_writers : (0 : RegIx) ≠ 15 ∧ exec (.addReg 15 15) State.reset = .next State.reset := ⟨by decide, rfl⟩

theorem witness_OnlyCallAndRetRaiseStackFaults :
    let s := machineWithStack (List.replicate 16 2) 2 []
    s.runState = .running ∧ s.sp.val = 16 ∧ exec (.call 5) s = .next (s.raise .stackOverflow 0) ∧
      (s.raise .stackOverflow 0).runState = .faulted ∧ State.reset.sp.val = 0 := ⟨rfl, rfl, rfl, rfl, rfl⟩

theorem witness_NoInstructionTouchesMemory :
    exec (.jp 4) State.reset = .next (State.reset.setPc 4) ∧
    Transaction.takes .step State.reset (stepped State.reset) ∧ Transaction.step ≠ .reset ∧
    ∀ base bytes, Transaction.step ≠ .load base bytes := ⟨rfl, rfl, by decide, by intro _ _ h; cases h⟩

theorem witness_OnlyNamedRegistersChange :
    (Instr.sub 3 4).dest? ≠ some 5 ∧ (Instr.sub 3 4).writesFlag = true ∧ (Instr.or 3 4).writesFlag = false ∧
    exec (.sub 3 4) State.reset = .next (State.reset.setRegAndFlag 3 0 1) := ⟨by decide, rfl, rfl, rfl⟩

theorem witness_OnlyNamedRegistersAreRead :
    (15 : RegIx) ∉ (Instr.addReg 3 4).sources ∧
    exec (.addReg 3 4) State.reset = .next (State.reset.setRegAndFlag 3 0 0) ∧
    exec (.addReg 3 4) (State.reset.setReg 15 9) = .next ((State.reset.setReg 15 9).setRegAndFlag 3 0 0) :=
  ⟨by decide, rfl, rfl⟩

theorem witness_OnlyCallAndRetTouchTheStack :
    ∃ t, exec (.call 5) (machine [] 2 []) = .next t ∧ t.sp ≠ (machine [] 2 []).sp ∧
      t.stack[(0 : Fin 16)] ≠ (machine [] 2 []).stack[(0 : Fin 16)] :=
  ⟨_, rfl, by decide, by decide⟩

/-- A state in mid-program, with one live return address, that meets the invariant. -/
theorem inv_midProgram : (machineWithStack [0x1000] 4093 [0x30, 0x00]).Inv where
  memWf := by decide
  faultIff := by decide
  faultWord := by decide
  faultUnknown := by decide
  neverUnimplemented := by decide
  pcRange := by decide
  liveRange := by decide

theorem witness_InvariantKeptByEveryStep :
    (machineWithStack [0x1000] 4093 [0x30, 0x00]).Inv ∧
    step (machineWithStack [0x1000] 4093 [0x30, 0x00]) = .next (stepped (machineWithStack [0x1000] 4093 [0x30, 0x00])) :=
  ⟨inv_midProgram, rfl⟩

theorem witness_ReachableStatesMeetTheInvariant : Reachable (State.reset.load 0 [0x20, 0x00]).2 :=
  .after (.load 0 [0x20, 0x00]) .reset rfl

theorem inv_lastFetch : (machine [] 4094 [0x30, 0x00]).Inv where
  memWf := by decide
  faultIff := by decide
  faultWord := by decide
  faultUnknown := by decide
  neverUnimplemented := by decide
  pcRange := by decide
  liveRange := by decide

theorem witness_HighPcComesOnlyFromATakenSkip :
    let s := machine [] 4094 [0x30, 0x00]
    s.Inv ∧ s.runState = .running ∧ s.pc.toNat ≤ 4096 ∧ step s = .next (stepped s) ∧ 4096 < (stepped s).pc.toNat :=
  ⟨inv_lastFetch, rfl, by decide, rfl, by decide⟩

/-- A CALL at depth 15, and its target a RET. -/
theorem witness_CallThenRetReturns :
    let s := machineWithStack (List.replicate 15 2) 0 [0x20, 0x02, 0x00, 0xEE]
    s.runState = .running ∧ s.fetch = some 0x2002 ∧ decodeWord 0x2002 = .instr (.call 2) ∧ s.sp.val < 16 ∧
      s.mem.readWord? (2 : Addr).toNat = some 0x00EE := by decide

/-- A CALL to 2, an ADD there, and the RET at 4: one step in between. -/
theorem witness_BalancedCallReturnsToItsCaller :
    let s := machine [] 0 [0x20, 0x02, 0x80, 0x14, 0x00, 0xEE]
    let c := stepped s
    let u := stepped c
    s.runState = .running ∧ s.fetch = some 0x2002 ∧ decodeWord 0x2002 = .instr (.call 2) ∧ s.sp.val < 16 ∧
      step s = .next c ∧ Steps 1 c u ∧ (∀ k ≤ 1, ∀ v, Steps k c v → s.sp.val < v.sp.val) ∧
      u.sp.val = s.sp.val + 1 ∧ u.runState = .running ∧ u.fetch = some 0x00EE ∧ decodeWord 0x00EE = .instr .ret := by
  refine ⟨rfl, by decide, by decide, by decide, rfl, ⟨_, rfl, rfl⟩, ?_, by decide, by decide, by decide, by decide⟩
  intro k hk v hv
  match k, hk, hv with
  | 0, _, hv => subst hv; decide
  | 1, _, ⟨w, hw, hv⟩ =>
    have e : step (stepped (machine [] 0 [0x20, 0x02, 0x80, 0x14, 0x00, 0xEE])) =
      .next (stepped (stepped (machine [] 0 [0x20, 0x02, 0x80, 0x14, 0x00, 0xEE]))) := rfl
    rw [e] at hw
    injection hw with hw
    subst hw
    subst hv
    decide

theorem witness_StaleStackEntriesAreUnobservable :
    let s := machine [] 0 [0x61, 0x07]
    let s' := { s with stack := s.stack.set 0 5 }
    SameButStale s s' ∧ s ≠ s' ∧ step s = .next (stepped s) ∧ step s' = .next (stepped s') :=
  ⟨⟨rfl, rfl, rfl, rfl, rfl, rfl, fun _ h => absurd h (Nat.not_lt_zero _)⟩, by decide, rfl, rfl⟩

theorem witness_LoadWritesAllOrNothing :
    State.reset.mem.wf = true ∧ 4094 + [(1 : Byte), 2].length ≤ 4096 ∧ 4096 < 4095 + [(1 : Byte), 2].length ∧
    State.reset.runState = .running ∧ State.reset.halt.runState ≠ .running := by decide

theorem witness_LoadedBytesReadBack :
    State.reset.mem.wf = true ∧ 4094 + [(1 : Byte), 2].length ≤ 4096 := by decide

theorem witness_ReadAnswersOrRefuses :
    State.reset.readPort (.memory 4096 0) = some (.memory []) ∧ State.reset.readPort (.memory 4095 2) = none := by decide

theorem witness_NextStepRunsTheLoadedInstruction :
    (machine [] 4094 []).mem.wf = true ∧ (machine [] 4094 []).runState = .running ∧
    (machine [] 4094 []).pc.toNat ≤ 4094 := by decide

theorem witness_UnloadedMemoryHalts :
    let s := machine [] 4094 []
    s.runState = .running ∧ s.pc.toNat ≤ 4094 ∧ s.mem.read s.pc.toNat = 0 ∧ s.mem.read (s.pc.toNat + 1) = 0 := by decide

theorem witness_RunToHaltIsIteratedStep :
    State.reset.runToHalt 1 = some (stepped State.reset) ∧ Steps 1 State.reset (stepped State.reset) ∧
    (stepped State.reset).terminal := ⟨by decide, ⟨_, rfl, rfl⟩, by unfold State.terminal; decide⟩

theorem witness_JumpToItselfNeverEnds :
    let s := machine [] 0x200 [0x12, 0x00]
    s.runState = .running ∧ s.fetch = some 0x1200 ∧ decodeWord 0x1200 = .instr (.jp 0x200) ∧
      (0x200 : Addr).toNat = s.pc.toNat := by decide

theorem witness_TerminalStateLeftOnlyByReset :
    State.reset.halt.terminal ∧ Transaction.takes .step State.reset.halt State.reset.halt ∧
    Transaction.step ≠ .reset := ⟨by unfold State.terminal; decide, rfl, by decide⟩

theorem witness_PlacedWordIsTheNextInstruction :
    State.reset.mem.wf = true ∧ decodeTableWord 16 0x8014 = some (.addReg 0 1) ∧ State.reset.runState = .running ∧
    State.reset.pc.toNat ≤ 4094 := by decide

end Sys2Proof.Tests
end

/-! PROOFS. Memory (R32, R36). -/

namespace Sys2Proof.Machine

/-! ### The two-byte read (R32) -/

/-- Up to 4094 the two-byte read answers the word of the two bytes (R32). -/
theorem Memory.readWord?_of_le {m : Memory} {a : Nat} (h : a ≤ 4094) :
    m.readWord? a = some (wordOfBytes (m.read a) (m.read (a + 1))) :=
  if_pos h

/-- From 4095 on the two-byte read answers nothing (R32). -/
theorem Memory.readWord?_of_gt {m : Memory} {a : Nat} (h : 4094 < a) : m.readWord? a = none :=
  if_neg (Nat.not_le.mpr h)

/-- Settles O3: the two cases of the read's bound, and the value of a word made of two bytes. -/
theorem twoByteReadIsHighByteFirst : Obligations.TwoByteReadIsHighByteFirst := fun _ _ =>
  ⟨fun h => ⟨_, Memory.readWord?_of_le h, wordOfBytes_toNat _ _⟩, Memory.readWord?_of_gt⟩

/-! ### Execution with another memory (R36) -/

/-- A skip commutes with putting another memory in. -/
theorem State.skipIf_withMem (s : State) (c : Bool) (m : Memory) :
    State.skipIf { s with mem := m } c = { s.skipIf c with mem := m } := by
  cases c <;> rfl

/-- RET reads `sp` and the stack only, on an empty stack too. -/
theorem execRet_withMem (s : State) :
    ∃ t, execRet s = .next t ∧ ∀ m, execRet { s with mem := m } = .next { t with mem := m } := by
  unfold execRet State.pop
  by_cases h : s.sp.val = 0
  · simp only [dif_pos h]
    exact ⟨_, rfl, fun _ => rfl⟩
  · simp only [dif_neg h]
    exact ⟨_, rfl, fun _ => rfl⟩

/-- CALL reads `pc` and `sp` only, on a full stack too. -/
theorem execCall_withMem (nnn : Addr) (s : State) :
    ∃ t, execCall nnn s = .next t ∧ ∀ m, execCall nnn { s with mem := m } = .next { t with mem := m } := by
  unfold execCall State.push
  by_cases h : s.sp.val < Config.stackDepth
  · simp only [dif_pos h]
    exact ⟨_, rfl, fun _ => rfl⟩
  · simp only [dif_neg h]
    exact ⟨_, rfl, fun _ => rfl⟩

/-- Every instruction answers a next state, and with another memory it answers the same state with that memory. -/
theorem exec_withMem (i : Instr) (s : State) :
    ∃ t, exec i s = .next t ∧ ∀ m, exec i { s with mem := m } = .next { t with mem := m } := by
  cases i with
  | ret => exact execRet_withMem s
  | call nnn => exact execCall_withMem nnn s
  | seImm | sneImm | seReg | sneReg => exact ⟨_, rfl, fun m => congrArg _ (State.skipIf_withMem s _ m)⟩
  | halt | jp | jpV0 | ldImm | addImm | ldReg | or | and | xor | addReg | sub | shr | subn | shl =>
    exact ⟨_, rfl, fun _ => rfl⟩

/-- What an instruction does with another memory (R36). -/
theorem exec_withMem_of_next {i : Instr} {s t : State} (h : exec i s = .next t) (m : Memory) :
    exec i { s with mem := m } = .next { t with mem := m } := by
  obtain ⟨u, hu, hm⟩ := exec_withMem i s
  obtain rfl : u = t := by simpa [hu] using h
  exact hm m

/-- An instruction leaves memory as it was (R36): with the memory it has, it answers a state with that memory. -/
theorem exec_mem {i : Instr} {s t : State} (h : exec i s = .next t) : t.mem = s.mem := by
  have same : Host.Outcome.next t = .next { t with mem := s.mem } := h.symm.trans (exec_withMem_of_next h s.mem)
  injection same with same
  rw [same]

/-! ### Steps and runs (R36, R83) -/

/-- A step leaves memory as it was. -/
theorem step_mem {s t : State} (h : step s = .next t) : t.mem = s.mem := by
  obtain ⟨-, rfl⟩ | ⟨-, -, rfl⟩ | ⟨_, _, -, -, -, rfl⟩ | ⟨_, _, -, -, -, hexec⟩ := step_cases h
  · rfl
  · rfl
  · rfl
  · exact (exec_mem hexec).trans (State.advancePc_mem s)

/-- The state a step leaves is the next state it answers. -/
theorem State.afterStep_eq_some {s t : State} : s.afterStep = some t ↔ step s = .next t := by
  unfold State.afterStep
  cases step s <;> simp

/-- All a RUN_TO_HALT that returns can do (R83): nothing in a terminal state, else one step and the rest of the run. -/
theorem State.runToHalt_cases {s t : State} {fuel : Nat} (h : s.runToHalt fuel = some t) :
    (s.isRunning = false ∧ t = s) ∨
    (s.isRunning = true ∧ ∃ n u, fuel = n + 1 ∧ step s = .next u ∧ u.runToHalt n = some t) := by
  cases hr : s.isRunning with
  | false => cases fuel <;> exact .inl ⟨rfl, by simpa [State.runToHalt, hr, eq_comm] using h⟩
  | true =>
    cases fuel with
    | zero => simp [State.runToHalt, hr] at h
    | succ n =>
      simp only [State.runToHalt, hr, if_true, Option.bind_eq_some_iff] at h
      obtain ⟨u, hu, hrun⟩ := h
      exact .inr ⟨rfl, n, u, rfl, State.afterStep_eq_some.mp hu, hrun⟩

/-- A run to the halt leaves memory as it was. -/
theorem State.runToHalt_mem {fuel : Nat} {s t : State} (h : s.runToHalt fuel = some t) : t.mem = s.mem := by
  induction fuel generalizing s with
  | zero =>
    obtain ⟨-, rfl⟩ | ⟨-, _, _, hfuel, -⟩ := State.runToHalt_cases h
    · rfl
    · cases hfuel
  | succ n ih =>
    obtain ⟨-, rfl⟩ | ⟨-, _, u, hfuel, hstep, hrun⟩ := State.runToHalt_cases h
    · rfl
    · obtain rfl := Nat.succ.inj hfuel
      exact (ih hrun).trans (step_mem hstep)

/-- STEP, RUN_TO_HALT and READ leave memory as it was (R36, R79). -/
theorem Transaction.takes_mem {tr : Transaction} {s t : State} (h : tr.takes s t) (hreset : tr ≠ .reset)
    (hload : ∀ base bytes, tr ≠ .load base bytes) : t.mem = s.mem := by
  cases tr with
  | reset => exact absurd rfl hreset
  | load base bytes => exact absurd rfl (hload base bytes)
  | step => exact step_mem h
  | runToHalt =>
    obtain ⟨fuel, hrun⟩ := h
    exact State.runToHalt_mem hrun
  | read => exact congrArg State.mem h

/-- Settles O33: an instruction commutes with putting another memory in, so it neither reads nor changes memory; the
transactions made of steps inherit that. -/
theorem noInstructionTouchesMemory : Obligations.NoInstructionTouchesMemory :=
  ⟨fun _ _ _ h => ⟨fun _ => by rw [exec_mem h], exec_withMem_of_next h⟩,
    fun _ _ _ => Transaction.takes_mem⟩

end Sys2Proof.Machine

/-! PROOFS. Encoding (R52, R58). -/

namespace Sys2Proof

/-! ### A word is made of its fields (R52) -/

/-- A word is its class and its `nnn`. -/
theorem wordA_fieldNNN {w : Word} {c : BitVec 4} (hc : w.toNat / 4096 = c.toNat) : wordA c (fieldNNN w) = w := by
  apply BitVec.eq_of_toNat_eq
  rw [wordA_toNat, fieldNNN_toNat]
  omega

/-- A word is its class, its `x` and its `kk`. -/
theorem wordXK_fieldX_fieldKK {w : Word} {c : BitVec 4} (hc : w.toNat / 4096 = c.toNat) :
    wordXK c (fieldX w) (fieldKK w) = w := by
  apply BitVec.eq_of_toNat_eq
  rw [wordXK_toNat, fieldX_val, fieldKK_toNat]
  omega

/-- A word is its class, its `x`, its `y` and its selector. -/
theorem wordXY_fieldX_fieldY {w : Word} {c n : BitVec 4} (hc : w.toNat / 4096 = c.toNat) (hn : w.toNat % 16 = n.toNat) :
    wordXY c (fieldX w) (fieldY w) n = w := by
  apply BitVec.eq_of_toNat_eq
  rw [wordXY_toNat, fieldX_val, fieldY_val]
  omega

/-! ### The decoder drops no bit (R58) -/

/-- A word that decodes to an instruction is that instruction's word: in each case of the decoder, the class and selector it
matched and the fields it read make up the whole word. -/
theorem encode_of_decodeWord {w : Word} {i : Instr} (h : decodeWord w = .instr i) : encode i = w := by
  have hdec : DecodesTo w (.instr i) := h ▸ decodesTo w
  cases hdec with
  | halt hw | ret hw => exact BitVec.eq_of_toNat_eq hw.symm
  | jp hc | call hc | jpV0 hc => exact wordA_fieldNNN hc
  | seImm hc | sneImm hc | ldImm hc | addImm hc => exact wordXK_fieldX_fieldKK hc
  | seReg hc hn | sneReg hc hn | ldReg hc hn | or hc hn | and hc hn | xor hc hn | addReg hc hn | sub hc hn | shr hc hn
  | subn hc hn | shl hc hn => exact wordXY_fieldX_fieldY hc hn

/-- Settles O18: the shifts' arms do not mention `y`, and two words that decode to one instruction are both its encoding. -/
theorem onlyTheShiftsIgnoreBits : Obligations.OnlyTheShiftsIgnoreBits :=
  ⟨fun _ _ _ _ => ⟨rfl, rfl⟩,
    fun _ _ _ h h' => (encode_of_decodeWord h).symm.trans (encode_of_decodeWord h')⟩

end Sys2Proof

/-! PROOFS. HALT (R78). -/

namespace Sys2Proof.Machine

/-- HALT completes in every state and changes the run state only. -/
theorem exec_halt (s : State) : exec .halt s = .next s.halt := rfl

/-- Halting keeps registers, memory, the stack and `sp`. -/
theorem State.halt_keepsData (s : State) : KeepsData s s.halt where
  regs := s.halt_reg
  mem a := by rw [s.halt_mem]
  stack i := by rw [s.halt_stack]
  sp := s.halt_sp

/-- No word but 0x0000 decodes to HALT: such a word is HALT's encoding. -/
theorem eq_zero_of_decodeWord_halt {n : Nat} (hn : n < 65536)
    (h : decodeWord (BitVec.ofNat 16 n) = .instr .halt) : n = 0 := by
  have hzero : encode .halt = BitVec.ofNat 16 n := encode_of_decodeWord h
  calc n = (BitVec.ofNat 16 n).toNat := (Nat.mod_eq_of_lt hn).symm
    _ = (encode .halt).toNat := by rw [hzero]
    _ = 0 := rfl

/-- Settles O20: the decoder drops no bit, so HALT has one word, and halting writes `runState` alone. -/
theorem haltStopsTheRunLoop : Obligations.HaltStopsTheRunLoop :=
  ⟨⟨rfl, rfl⟩, fun _ hn h => eq_zero_of_decodeWord_halt hn h,
    fun s => ⟨s.halt, exec_halt s, s.halt_runState, s.halt_pc, s.halt_fault, s.halt_keepsData⟩⟩

end Sys2Proof.Machine

/-! PROOFS. JP (R91). -/

namespace Sys2Proof

/-! ### Words of format A (R52) -/

/-- The class of a word of format A. -/
theorem wordA_toNat_div (c : BitVec 4) (nnn : Addr) : (wordA c nnn).toNat / 4096 = c.toNat := by
  have := nnn.isLt
  rw [wordA_toNat]
  omega

/-- The address of a word of format A. -/
@[simp] theorem fieldNNN_wordA (c : BitVec 4) (nnn : Addr) : fieldNNN (wordA c nnn) = nnn := by
  have := nnn.isLt
  apply BitVec.eq_of_toNat_eq
  rw [fieldNNN_toNat, wordA_toNat]
  omega

/-- Class 1 is JP's alone (R54): every other case of the decoder is of another class. -/
theorem decodeWord_of_class_one {w : Word} (hc : w.toNat / 4096 = 1) : decodeWord w = .instr (.jp (fieldNNN w)) := by
  have hdec := decodesTo w
  generalize decodeWord w = op at hdec ⊢
  cases hdec with
  | jp => rfl
  | halt h | ret h | call h | seImm h | sneImm h | seReg h | ldImm h | addImm h | ldReg h | or h | and h | xor h
  | addReg h | sub h | shr h | subn h | shl h | sneReg h | jpV0 h | unknown h => omega

/-- JP's word decodes to JP, with its address. -/
theorem decodeWord_encode_jp (nnn : Addr) : decodeWord (encode (.jp nnn)) = .instr (.jp nnn) :=
  calc decodeWord (wordA 0x1 nnn)
    _ = .instr (.jp (fieldNNN (wordA 0x1 nnn))) := decodeWord_of_class_one (wordA_toNat_div 0x1 nnn)
    _ = .instr (.jp nnn) := by rw [fieldNNN_wordA]

end Sys2Proof

namespace Sys2Proof.Machine

/-- An instruction whose encoding decodes to it has the encoding's number as its word. -/
theorem WordOf.of_decodeWord_encode {i : Instr} {n : Nat} (hn : (encode i).toNat = n)
    (h : decodeWord (encode i) = .instr i) : WordOf i n := by
  subst hn
  exact ⟨rfl, by rwa [BitVec.ofNat_toNat, BitVec.setWidth_eq]⟩

/-- JP's word. -/
theorem wordOf_jp (nnn : Addr) : WordOf (.jp nnn) (0x1000 + nnn.toNat) :=
  .of_decodeWord_encode (wordA_toNat 0x1 nnn) (decodeWord_encode_jp nnn)

/-- JP completes in every state and sets `pc` only. -/
theorem exec_jp (nnn : Addr) (s : State) : exec (.jp nnn) s = .next (s.setPc (addrOperand nnn)) := rfl

/-- Setting `pc` keeps everything else. -/
theorem State.setPc_keepsBut (s : State) (v : Word) : KeepsBut [] s (s.setPc v) where
  regs r _ := s.setPc_reg v r
  mem a := by rw [s.setPc_mem]
  stack i := by rw [s.setPc_stack]
  sp := s.setPc_sp v
  runState := s.setPc_runState v
  fault := s.setPc_fault v

/-- Settles O22: class 1 is JP's alone and its other bits are the address, and a jump writes `pc` alone. -/
theorem jpLoadsTheAddress : Obligations.JpLoadsTheAddress := fun nnn =>
  ⟨wordOf_jp nnn, fun s => ⟨s.setPc (addrOperand nnn), exec_jp nnn s, addrOperand_toNat nnn,
    s.setPc_keepsBut (addrOperand nnn)⟩⟩

end Sys2Proof.Machine

/-! PROOFS. The four skips (R100 to R104). -/

namespace Sys2Proof

/-! ### The decoder's cases exclude one another (R54) -/

/-- A word of a class other than 0 is neither of the two words of class 0 that decode to an instruction. -/
theorem ne_haltWord_and_ne_retWord {w : Word} (hc : w.toNat / 4096 ≠ 0) : w ≠ 0#16 ∧ w ≠ 0x00EE#16 := by
  constructor <;> (rintro rfl; exact hc rfl)

/-- A word that meets a case's conditions is decoded by that case: the converse of `decodesTo`. -/
theorem DecodesTo.decodeWord_eq {w : Word} {op : Op} (h : DecodesTo w op) : decodeWord w = op := by
  cases h with
  | halt hw =>
    obtain rfl : w = 0x0000 := BitVec.eq_of_toNat_eq hw
    rfl
  | ret hw =>
    obtain rfl : w = 0x00EE := BitVec.eq_of_toNat_eq hw
    rfl
  | jp hc | call hc | seImm hc | sneImm hc | ldImm hc | addImm hc | jpV0 hc =>
    obtain ⟨hhalt, hret⟩ := ne_haltWord_and_ne_retWord (w := w) (by omega)
    simp [decodeWord, fieldC_eq_iff, hc, hhalt, hret]
  | seReg hc hn | ldReg hc hn | or hc hn | and hc hn | xor hc hn | addReg hc hn | sub hc hn | shr hc hn | subn hc hn
  | shl hc hn | sneReg hc hn =>
    obtain ⟨hhalt, hret⟩ := ne_haltWord_and_ne_retWord (w := w) (by omega)
    simp [decodeWord, decodeClass8, fieldC_eq_iff, fieldN_eq_iff, hc, hn, hhalt, hret]
  | unknown hu =>
    have hdec := decodesTo w
    generalize decodeWord w = op at hdec ⊢
    cases hdec with
    | unknown => rfl
    | halt h | ret h | jp h | call h | seImm h | sneImm h | seReg h | ldImm h | addImm h | ldReg h | or h | and h | xor h
    | addReg h | sub h | shr h | subn h | shl h | sneReg h | jpV0 h => omega

/-! ### Words of the formats XK and XY (R52) -/

/-- The class of a word of format XK. -/
theorem wordXK_toNat_div (c : BitVec 4) (x : RegIx) (kk : Byte) : (wordXK c x kk).toNat / 4096 = c.toNat := by
  have := kk.isLt
  rw [wordXK_toNat]
  omega

/-- The register of a word of format XK. -/
@[simp] theorem fieldX_wordXK (c : BitVec 4) (x : RegIx) (kk : Byte) : fieldX (wordXK c x kk) = x := by
  have := kk.isLt
  apply Fin.ext
  rw [fieldX_val, wordXK_toNat]
  omega

/-- The byte of a word of format XK. -/
@[simp] theorem fieldKK_wordXK (c : BitVec 4) (x : RegIx) (kk : Byte) : fieldKK (wordXK c x kk) = kk := by
  have := kk.isLt
  apply BitVec.eq_of_toNat_eq
  rw [fieldKK_toNat, wordXK_toNat]
  omega

/-- The class of a word of format XY. -/
theorem wordXY_toNat_div (c : BitVec 4) (x y : RegIx) (n : BitVec 4) : (wordXY c x y n).toNat / 4096 = c.toNat := by
  have := n.isLt
  rw [wordXY_toNat]
  omega

/-- The selector of a word of format XY. -/
theorem wordXY_toNat_mod (c : BitVec 4) (x y : RegIx) (n : BitVec 4) : (wordXY c x y n).toNat % 16 = n.toNat := by
  have := n.isLt
  rw [wordXY_toNat]
  omega

/-- The first register of a word of format XY. -/
@[simp] theorem fieldX_wordXY (c : BitVec 4) (x y : RegIx) (n : BitVec 4) : fieldX (wordXY c x y n) = x := by
  have := n.isLt
  apply Fin.ext
  rw [fieldX_val, wordXY_toNat]
  omega

/-- The second register of a word of format XY. -/
@[simp] theorem fieldY_wordXY (c : BitVec 4) (x y : RegIx) (n : BitVec 4) : fieldY (wordXY c x y n) = y := by
  have := n.isLt
  apply Fin.ext
  rw [fieldY_val, wordXY_toNat]
  omega

end Sys2Proof

namespace Sys2Proof.Machine

/-! ### The words of the skips -/

/-- The word of SE with a byte (R100). -/
theorem wordOf_seImm (x : RegIx) (kk : Byte) : WordOf (.seImm x kk) (0x3000 + x.val * 256 + kk.toNat) :=
  .of_decodeWord_encode (wordXK_toNat 0x3 x kk) <| by
    simpa [encode] using (DecodesTo.seImm (wordXK_toNat_div 0x3 x kk)).decodeWord_eq

/-- The word of SNE with a byte (R101). -/
theorem wordOf_sneImm (x : RegIx) (kk : Byte) : WordOf (.sneImm x kk) (0x4000 + x.val * 256 + kk.toNat) :=
  .of_decodeWord_encode (wordXK_toNat 0x4 x kk) <| by
    simpa [encode] using (DecodesTo.sneImm (wordXK_toNat_div 0x4 x kk)).decodeWord_eq

/-- The word of SE with a register (R102). -/
theorem wordOf_seReg (x y : RegIx) : WordOf (.seReg x y) (0x5000 + x.val * 256 + y.val * 16) :=
  .of_decodeWord_encode (wordXY_toNat 0x5 x y 0x0) <| by
    simpa [encode] using (DecodesTo.seReg (wordXY_toNat_div 0x5 x y 0x0) (wordXY_toNat_mod 0x5 x y 0x0)).decodeWord_eq

/-- The word of SNE with a register (R103). -/
theorem wordOf_sneReg (x y : RegIx) : WordOf (.sneReg x y) (0x9000 + x.val * 256 + y.val * 16) :=
  .of_decodeWord_encode (wordXY_toNat 0x9 x y 0x0) <| by
    simpa [encode] using (DecodesTo.sneReg (wordXY_toNat_div 0x9 x y 0x0) (wordXY_toNat_mod 0x9 x y 0x0)).decodeWord_eq

/-! ### What a skip does (R104) -/

/-- SE with a byte completes in every state and skips on equality (R100). -/
theorem exec_seImm (x : RegIx) (kk : Byte) (s : State) :
    exec (.seImm x kk) s = .next (s.skipIf (s.reg x == kk)) := rfl

/-- SNE with a byte completes in every state and skips on inequality (R101). -/
theorem exec_sneImm (x : RegIx) (kk : Byte) (s : State) :
    exec (.sneImm x kk) s = .next (s.skipIf (s.reg x != kk)) := rfl

/-- SE with a register completes in every state and skips on equality (R102). -/
theorem exec_seReg (x y : RegIx) (s : State) :
    exec (.seReg x y) s = .next (s.skipIf (s.reg x == s.reg y)) := rfl

/-- SNE with a register completes in every state and skips on inequality (R103). -/
theorem exec_sneReg (x y : RegIx) (s : State) :
    exec (.sneReg x y) s = .next (s.skipIf (s.reg x != s.reg y)) := rfl

/-- A skip keeps everything but `pc`. -/
theorem State.skipIf_keepsBut (s : State) (c : Bool) : KeepsBut [] s (s.skipIf c) where
  regs r _ := s.skipIf_reg c r
  mem a := by rw [s.skipIf_mem]
  stack i := by rw [s.skipIf_stack]
  sp := s.skipIf_sp c
  runState := s.skipIf_runState c
  fault := s.skipIf_fault c

/-- From the address after the skip's own, a skip goes to the address after that when its condition holds. -/
theorem State.skipIf_pc_of_pc_eq {s : State} {A : Word} (hpc : s.pc = A + 2) (c : Bool) :
    (s.skipIf c).pc = if c then A + 4 else A + 2 := by
  have hnext : A + 2 + 2 = A + 4 := BitVec.add_assoc A 2 2
  rw [State.skipIf_pc, hpc, hnext]

/-- An instruction that answers by a skip on `c`, where `c` decides `p`, has the effect R104 gives a skip on `p`, and with
any memory. -/
theorem exec_skip_effect {i : Instr} {s : State} {A : Word} {c : Bool} {p : Prop} [Decidable p]
    (hexec : exec i s = .next (s.skipIf c)) (hcond : c = true ↔ p) (hpc : s.pc = A + 2) :
    ∃ t, exec i s = .next t ∧ t.pc = (if p then A + 4 else A + 2) ∧ KeepsBut [] s t ∧
      ∀ m, exec i { s with mem := m } = .next { t with mem := m } := by
  refine ⟨s.skipIf c, hexec, ?_, s.skipIf_keepsBut c, exec_withMem_of_next hexec⟩
  simp only [State.skipIf_pc_of_pc_eq hpc, hcond]

/-- Settles O25: each of the four words decodes to its skip, and each skip answers by `State.skipIf` on its condition. -/
theorem skipsAddTwoWhenTheConditionHolds : Obligations.SkipsAddTwoWhenTheConditionHolds := fun x y kk =>
  ⟨wordOf_seImm x kk, wordOf_sneImm x kk, wordOf_seReg x y, wordOf_sneReg x y, fun s _ hpc =>
    ⟨exec_skip_effect (exec_seImm x kk s) beq_iff_eq hpc, exec_skip_effect (exec_sneImm x kk s) bne_iff_ne hpc,
      exec_skip_effect (exec_seReg x y s) beq_iff_eq hpc, exec_skip_effect (exec_sneReg x y s) bne_iff_ne hpc⟩⟩

end Sys2Proof.Machine

/-! PROOFS. Load and add with a byte (R110, R111). -/

namespace Sys2Proof.Machine

/-- The word of LD with a byte (R110). -/
theorem wordOf_ldImm (x : RegIx) (kk : Byte) : WordOf (.ldImm x kk) (0x6000 + x.val * 256 + kk.toNat) :=
  .of_decodeWord_encode (wordXK_toNat 0x6 x kk) <| by
    simpa [encode] using (DecodesTo.ldImm (wordXK_toNat_div 0x6 x kk)).decodeWord_eq

/-- The word of ADD with a byte (R111). -/
theorem wordOf_addImm (x : RegIx) (kk : Byte) : WordOf (.addImm x kk) (0x7000 + x.val * 256 + kk.toNat) :=
  .of_decodeWord_encode (wordXK_toNat 0x7 x kk) <| by
    simpa [encode] using (DecodesTo.addImm (wordXK_toNat_div 0x7 x kk)).decodeWord_eq

/-- LD with a byte completes in every state and sets `V[x]` only (R110). -/
theorem exec_ldImm (x : RegIx) (kk : Byte) (s : State) : exec (.ldImm x kk) s = .next (s.setReg x kk) := rfl

/-- ADD with a byte completes in every state and sets `V[x]` only (R111). -/
theorem exec_addImm (x : RegIx) (kk : Byte) (s : State) :
    exec (.addImm x kk) s = .next (s.setReg x (s.reg x + kk)) := rfl

/-- Setting a register keeps every other register and everything else. -/
theorem State.setReg_keepsBut (s : State) (x : RegIx) (v : Byte) : KeepsBut [x] s (s.setReg x v) where
  regs _ hr := s.reg_setReg_of_ne v (List.ne_of_not_mem_cons hr)
  mem a := by rw [s.setReg_mem]
  stack i := by rw [s.setReg_stack]
  sp := s.setReg_sp x v
  runState := s.setReg_runState x v
  fault := s.setReg_fault x v

/-- An instruction that answers by setting `V[x]` to `v` leaves `v` there, `pc` alone and the rest as it was. -/
theorem exec_setReg_effect {i : Instr} {s : State} {x : RegIx} {v : Byte} (hexec : exec i s = .next (s.setReg x v)) :
    ∃ t, exec i s = .next t ∧ t.reg x = v ∧ t.pc = s.pc ∧ KeepsBut [x] s t :=
  ⟨s.setReg x v, hexec, s.reg_setReg_self x v, s.setReg_pc x v, s.setReg_keepsBut x v⟩

/-- Settles O26: class 6 decodes to LD with its `x` and `kk`, and the load is one write of `V[x]`. -/
theorem ldImmLoadsTheByte : Obligations.LdImmLoadsTheByte := fun x kk =>
  ⟨wordOf_ldImm x kk, fun s => exec_setReg_effect (exec_ldImm x kk s)⟩

/-- Settles O27: class 7 decodes to ADD with its `x` and `kk`, and the addition is one write of `V[x]`, whose value, a sum
of bytes, is the sum of the numbers modulo 256. -/
theorem addImmWrapsAndLeavesTheFlag : Obligations.AddImmWrapsAndLeavesTheFlag := fun x kk =>
  ⟨wordOf_addImm x kk, fun s => by
    obtain ⟨t, hexec, hreg, hpc, hkeeps⟩ := exec_setReg_effect (exec_addImm x kk s)
    have hsum : (t.reg x).toNat = ((s.reg x).toNat + kk.toNat) % 256 := hreg ▸ BitVec.toNat_add (s.reg x) kk
    exact ⟨t, hexec, hsum, hpc, hkeeps⟩⟩

end Sys2Proof.Machine

/-! PROOFS. Add with a register (R125). -/

namespace Sys2Proof

/-- A word of format XY as a number, the bits of its row's pattern first: its class and selector, then its registers
(R52, R55). -/
theorem wordXY_toNat_pattern_first (c : BitVec 4) (x y : RegIx) (n : BitVec 4) :
    (wordXY c x y n).toNat = c.toNat * 4096 + n.toNat + x.val * 256 + y.val * 16 := by
  rw [wordXY_toNat]
  omega

end Sys2Proof

namespace Sys2Proof.Machine

/-- The word of ADD with a register (R125). -/
theorem wordOf_addReg (x y : RegIx) : WordOf (.addReg x y) (0x8004 + x.val * 256 + y.val * 16) :=
  .of_decodeWord_encode (wordXY_toNat_pattern_first 0x8 x y 0x4) <| by
    simpa [encode] using (DecodesTo.addReg (wordXY_toNat_div 0x8 x y 0x4) (wordXY_toNat_mod 0x8 x y 0x4)).decodeWord_eq

/-- ADD with a register completes in every state and writes the sum and then its carry, both of the old values (R125). -/
theorem exec_addReg (x y : RegIx) (s : State) :
    exec (.addReg x y) s = .next (s.setRegAndFlag x (s.reg x + s.reg y) (carryFlag (s.reg x) (s.reg y))) := rfl

/-- After a result and its flag are written, VF holds the flag, for every destination (R120). -/
theorem State.reg_setRegAndFlag_flag (s : State) (x : RegIx) (r f : Byte) : (s.setRegAndFlag x r f).reg 15 = f :=
  (s.reg_setRegAndFlag x 15 r f).trans (if_pos rfl)

/-- After a result and its flag are written, a destination other than VF holds the result (R120). -/
theorem State.reg_setRegAndFlag_dest (s : State) {x : RegIx} (hx : x ≠ 15) (r f : Byte) :
    (s.setRegAndFlag x r f).reg x = r := by
  rw [s.reg_setRegAndFlag, if_neg hx, if_pos rfl]

/-- Writing a result and its flag keeps every register but the destination and VF, and everything else. -/
theorem State.setRegAndFlag_keepsBut (s : State) (x : RegIx) (r f : Byte) :
    KeepsBut [x, 15] s (s.setRegAndFlag x r f) where
  regs j hj := by
    have hdest : j ≠ x := List.ne_of_not_mem_cons hj
    have hflag : j ≠ 15 := List.ne_of_not_mem_cons (List.not_mem_of_not_mem_cons hj)
    rw [s.reg_setRegAndFlag, if_neg hflag, if_neg hdest]
  mem a := by rw [s.setRegAndFlag_mem]
  stack i := by rw [s.setRegAndFlag_stack]
  sp := s.setRegAndFlag_sp x r f
  runState := s.setRegAndFlag_runState x r f
  fault := s.setRegAndFlag_fault x r f

/-- An instruction that answers by writing the result `r` to `V[x]` and then the flag `f` leaves `r` in `V[x]` unless `x` is
VF, `f` in VF, `pc` alone and the rest as it was (R120). -/
theorem exec_setRegAndFlag_effect {i : Instr} {s : State} {x : RegIx} {r f : Byte}
    (hexec : exec i s = .next (s.setRegAndFlag x r f)) :
    ∃ t, exec i s = .next t ∧ (x ≠ 15 → t.reg x = r) ∧ t.reg 15 = f ∧ t.pc = s.pc ∧ KeepsBut [x, 15] s t :=
  ⟨s.setRegAndFlag x r f, hexec, fun hx => s.reg_setRegAndFlag_dest hx r f, s.reg_setRegAndFlag_flag x r f,
    s.setRegAndFlag_pc x r f, s.setRegAndFlag_keepsBut x r f⟩

/-- Settles O29: class 8 with selector 4 decodes to ADD with its `x` and `y`, and the addition is one write of `V[x]`, whose
value is the sum of the numbers modulo 256, and one of VF, last, with the carry of the old values. -/
theorem addRegAddsAndWritesTheCarry : Obligations.AddRegAddsAndWritesTheCarry := fun x y =>
  ⟨wordOf_addReg x y, fun s => by
    obtain ⟨t, hexec, hreg, hflag, hpc, hkeeps⟩ := exec_setRegAndFlag_effect (exec_addReg x y s)
    have hsum (hx : x ≠ 15) : (t.reg x).toNat = ((s.reg x).toNat + (s.reg y).toNat) % 256 :=
      hreg hx ▸ BitVec.toNat_add (s.reg x) (s.reg y)
    exact ⟨t, hexec, hsum, hflag, hpc, hkeeps⟩⟩

end Sys2Proof.Machine

/-! PROOFS. Stack faults (R141, R142). -/

namespace Sys2Proof.Machine

/-! ### CALL and RET by what the stack answers (R90, R93) -/

/-- A CALL whose push fails takes that fault. -/
theorem exec_call_of_push_error {s : State} {k : FaultKind} (h : s.push s.pc = .error k) (nnn : Addr) :
    exec (.call nnn) s = .next (s.raise k 0) := by
  simp only [exec, execCall, h]

/-- A CALL whose push succeeds jumps from the state the push leaves. -/
theorem exec_call_of_push_ok {s u : State} (h : s.push s.pc = .ok u) (nnn : Addr) :
    exec (.call nnn) s = .next (u.setPc (addrOperand nnn)) := by
  simp only [exec, execCall, h]

/-- A RET whose pop fails takes that fault. -/
theorem exec_ret_of_pop_error {s : State} {k : FaultKind} (h : s.pop = .error k) :
    exec .ret s = .next (s.raise k 0) := by
  simp only [exec, execRet, h]

/-- A RET whose pop succeeds goes to the popped address from the state the pop leaves. -/
theorem exec_ret_of_pop_ok {s u : State} {v : Word} (h : s.pop = .ok (v, u)) :
    exec .ret s = .next (u.setPc v) := by
  simp only [exec, execRet, h]

/-- All a CALL can do to the run state and the fault record: overflow on a full stack (R141), else nothing. -/
theorem exec_call_cases (nnn : Addr) (s : State) :
    (s.sp.val = 16 ∧ exec (.call nnn) s = .next (s.raise .stackOverflow 0)) ∨
    (s.sp.val < 16 ∧ ∃ t, exec (.call nnn) s = .next t ∧ t.runState = s.runState ∧ t.fault = s.fault) := by
  obtain ⟨hfull, hpush⟩ | ⟨hroom, u, hpush, -, -, -, -, -, hrun, hfault⟩ := s.push_cases s.pc
  · exact .inl ⟨hfull, exec_call_of_push_error hpush nnn⟩
  · exact .inr ⟨hroom, _, exec_call_of_push_ok hpush nnn, hrun, hfault⟩

/-- All a RET can do to the run state and the fault record: underflow on an empty stack (R142), else nothing. -/
theorem exec_ret_cases (s : State) :
    (s.sp.val = 0 ∧ exec .ret s = .next (s.raise .stackUnderflow 0)) ∨
    (0 < s.sp.val ∧ ∃ t, exec .ret s = .next t ∧ t.runState = s.runState ∧ t.fault = s.fault) := by
  obtain ⟨hempty, hpop⟩ | ⟨_, u, hpop, hsp, -, -, -, -, hrun, hfault⟩ := s.pop_cases
  · exact .inl ⟨hempty, exec_ret_of_pop_error hpop⟩
  · exact .inr ⟨by omega, _, exec_ret_of_pop_ok hpop, hrun, hfault⟩

/-- A CALL on a full stack raises StackOverflow (R141). -/
theorem exec_call_of_full {s : State} (hfull : s.sp.val = 16) (nnn : Addr) :
    exec (.call nnn) s = .next (s.raise .stackOverflow 0) := by
  obtain ⟨-, hexec⟩ | ⟨hroom, -⟩ := exec_call_cases nnn s
  · exact hexec
  · omega

/-- A RET on an empty stack raises StackUnderflow (R142). -/
theorem exec_ret_of_empty {s : State} (hempty : s.sp.val = 0) :
    exec .ret s = .next (s.raise .stackUnderflow 0) := by
  obtain ⟨-, hexec⟩ | ⟨hheld, -⟩ := exec_ret_cases s
  · exact hexec
  · omega

/-! ### What an instruction can do to the run state -/

/-- All an instruction can do to the run state and the fault record: CALL and RET can raise their stack fault, HALT halts,
and in every other case both stay as they were. -/
theorem exec_runState_cases {i : Instr} {s t : State} (h : exec i s = .next t) :
    (∃ nnn, i = .call nnn ∧ s.sp.val = 16 ∧ t = s.raise .stackOverflow 0) ∨
    (i = .ret ∧ s.sp.val = 0 ∧ t = s.raise .stackUnderflow 0) ∨
    (i = .halt ∧ t = s.halt) ∨
    (t.runState = s.runState ∧ t.fault = s.fault) := by
  cases i with
  | call nnn =>
    obtain ⟨hfull, hexec⟩ | ⟨-, u, hexec, hkept⟩ := exec_call_cases nnn s
    · obtain rfl := Host.Outcome.next.inj (h.symm.trans hexec)
      exact .inl ⟨nnn, rfl, hfull, rfl⟩
    · obtain rfl := Host.Outcome.next.inj (h.symm.trans hexec)
      exact .inr (.inr (.inr hkept))
  | ret =>
    obtain ⟨hempty, hexec⟩ | ⟨-, u, hexec, hkept⟩ := exec_ret_cases s
    · obtain rfl := Host.Outcome.next.inj (h.symm.trans hexec)
      exact .inr (.inl ⟨rfl, hempty, rfl⟩)
    · obtain rfl := Host.Outcome.next.inj (h.symm.trans hexec)
      exact .inr (.inr (.inr hkept))
  | halt =>
    obtain rfl := Host.Outcome.next.inj h
    exact .inr (.inr (.inl ⟨rfl, rfl⟩))
  | seImm | sneImm | seReg | sneReg =>
    obtain rfl := Host.Outcome.next.inj h
    exact .inr (.inr (.inr ⟨s.skipIf_runState _, s.skipIf_fault _⟩))
  | jp | jpV0 | ldImm | addImm | ldReg | or | and | xor | addReg | sub | shr | subn | shl =>
    obtain rfl := Host.Outcome.next.inj h
    exact .inr (.inr (.inr ⟨rfl, rfl⟩))

/-- An instruction that takes a running machine to Faulted is a CALL on a full stack or a RET on an empty one. -/
theorem stackFault_of_exec_faulted {i : Instr} {s t : State} (hrun : s.runState = .running) (hexec : exec i s = .next t)
    (hfaulted : t.runState = .faulted) :
    (∃ nnn, i = .call nnn ∧ s.sp.val = 16 ∧ t.fault.kind = .stackOverflow) ∨
    (i = .ret ∧ s.sp.val = 0 ∧ t.fault.kind = .stackUnderflow) := by
  obtain ⟨nnn, hi, hfull, rfl⟩ | ⟨hi, hempty, rfl⟩ | ⟨-, rfl⟩ | ⟨hsame, -⟩ := exec_runState_cases hexec
  · exact .inl ⟨nnn, hi, hfull, rfl⟩
  · exact .inr ⟨hi, hempty, rfl⟩
  · cases hfaulted
  · rw [hsame, hrun] at hfaulted
    cases hfaulted

/-- Settles O32: a failed push or pop is raised from the state the instruction was given, which keeps `sp` and the stack, and
of all that an instruction can do to the run state only these two faults lead from Running to Faulted. -/
theorem onlyCallAndRetRaiseStackFaults : Obligations.OnlyCallAndRetRaiseStackFaults :=
  ⟨fun nnn _ hfull => ⟨_, exec_call_of_full hfull nnn, rfl, rfl, rfl, fun _ => rfl⟩,
    fun _ hempty => ⟨_, exec_ret_of_empty hempty, rfl, rfl, rfl, fun _ => rfl⟩,
    fun _ _ _ => stackFault_of_exec_faulted⟩

end Sys2Proof.Machine

/-! PROOFS. The decoder and the encoder are inverse; the opcode map; the written form (R52 to R56, R60). -/

namespace Sys2Proof

/-! ### Decoding an encoded instruction (R52, R55) -/

/-- An instruction's word meets the conditions of that instruction's case of the decoder, and its fields are the operands. -/
theorem decodesTo_encode (i : Instr) : DecodesTo (encode i) (.instr i) := by
  cases i with
  | halt => exact .halt rfl
  | ret => exact .ret rfl
  | jp nnn => simpa [encode] using DecodesTo.jp (wordA_toNat_div 0x1 nnn)
  | jpV0 nnn => simpa [encode] using DecodesTo.jpV0 (wordA_toNat_div 0xB nnn)
  | call nnn => simpa [encode] using DecodesTo.call (wordA_toNat_div 0x2 nnn)
  | seImm x kk => simpa [encode] using DecodesTo.seImm (wordXK_toNat_div 0x3 x kk)
  | sneImm x kk => simpa [encode] using DecodesTo.sneImm (wordXK_toNat_div 0x4 x kk)
  | ldImm x kk => simpa [encode] using DecodesTo.ldImm (wordXK_toNat_div 0x6 x kk)
  | addImm x kk => simpa [encode] using DecodesTo.addImm (wordXK_toNat_div 0x7 x kk)
  | seReg x y => simpa [encode] using DecodesTo.seReg (wordXY_toNat_div 0x5 x y 0x0) (wordXY_toNat_mod 0x5 x y 0x0)
  | sneReg x y => simpa [encode] using DecodesTo.sneReg (wordXY_toNat_div 0x9 x y 0x0) (wordXY_toNat_mod 0x9 x y 0x0)
  | ldReg x y => simpa [encode] using DecodesTo.ldReg (wordXY_toNat_div 0x8 x y 0x0) (wordXY_toNat_mod 0x8 x y 0x0)
  | or x y => simpa [encode] using DecodesTo.or (wordXY_toNat_div 0x8 x y 0x1) (wordXY_toNat_mod 0x8 x y 0x1)
  | and x y => simpa [encode] using DecodesTo.and (wordXY_toNat_div 0x8 x y 0x2) (wordXY_toNat_mod 0x8 x y 0x2)
  | xor x y => simpa [encode] using DecodesTo.xor (wordXY_toNat_div 0x8 x y 0x3) (wordXY_toNat_mod 0x8 x y 0x3)
  | addReg x y => simpa [encode] using DecodesTo.addReg (wordXY_toNat_div 0x8 x y 0x4) (wordXY_toNat_mod 0x8 x y 0x4)
  | sub x y => simpa [encode] using DecodesTo.sub (wordXY_toNat_div 0x8 x y 0x5) (wordXY_toNat_mod 0x8 x y 0x5)
  | shr x y => simpa [encode] using DecodesTo.shr (wordXY_toNat_div 0x8 x y 0x6) (wordXY_toNat_mod 0x8 x y 0x6)
  | subn x y => simpa [encode] using DecodesTo.subn (wordXY_toNat_div 0x8 x y 0x7) (wordXY_toNat_mod 0x8 x y 0x7)
  | shl x y => simpa [encode] using DecodesTo.shl (wordXY_toNat_div 0x8 x y 0xE) (wordXY_toNat_mod 0x8 x y 0xE)

/-- Decoding an encoded instruction gives it back. -/
@[simp] theorem decodeWord_encode (i : Instr) : decodeWord (encode i) = .instr i := (decodesTo_encode i).decodeWord_eq

/-- Settles O14: the word of an instruction meets the conditions of exactly that instruction's case of the decoder. -/
theorem decodeOfEncodeIsTheInstruction : Obligations.DecodeOfEncodeIsTheInstruction := decodeWord_encode

/-- Settles O15: the class, the selector and the fields that the decoder read make up the whole word. -/
theorem encodeOfDecodeIsTheWord : Obligations.EncodeOfDecodeIsTheWord := fun _ _ => encode_of_decodeWord

/-- Settles O13: each word is computed from its bits. -/
theorem specWordsDecodeToTheirInstructions : Obligations.SpecWordsDecodeToTheirInstructions := by
  unfold Obligations.SpecWordsDecodeToTheirInstructions
  decide

/-! ### The unknown words (R54, R56) -/

/-- An unknown word is carried whole (R54). -/
theorem eq_of_decodeWord_unknown {w u : Word} (h : decodeWord w = .unknown u) : u = w := by
  have hdec : DecodesTo w (.unknown u) := h ▸ decodesTo w
  cases hdec
  rfl

/-- The decoder answers an instruction or the word it was given (R54). -/
theorem decodeWord_instr_or_unknown (w : Word) : (∃ i, decodeWord w = .instr i) ∨ decodeWord w = .unknown w := by
  cases h : decodeWord w with
  | instr i => exact .inl ⟨i, rfl⟩
  | unknown u => exact .inr (congrArg _ (eq_of_decodeWord_unknown h))

/-- Settles O17: both directions are the decoder's last case, whose condition is the list of classes. -/
theorem unknownSpaceClassByClass : Obligations.UnknownSpaceClassByClass := by
  intro w
  rw [BitVec.toNat_ne_iff_ne.symm, BitVec.toNat_ne_iff_ne.symm]
  constructor
  · intro h
    have hdec : DecodesTo w (.unknown w) := h ▸ decodesTo w
    cases hdec with
    | unknown hclass => exact hclass
  · exact fun hclass => (DecodesTo.unknown hclass).decodeWord_eq

/-! ### The opcode map (R55) -/

/-- An instruction's row is in the opcode map. -/
theorem Instr.row_mem_opcodeMap (i : Instr) : i.row ∈ opcodeMap := by
  cases i <;> simp [opcodeMap, Instr.row]

/-- An instruction's word is one its row selects. -/
theorem encode_and_mask_row (i : Instr) : encode i &&& i.row.mask = i.row.pattern := by
  cases i with
  | halt | ret => rfl
  | jp | jpV0 | call => exact wordA_and_mask _ _
  | seImm | sneImm | ldImm | addImm => exact wordXK_and_mask _ _ _
  | seReg | sneReg | ldReg | or | and | xor | addReg | sub | shr | subn | shl => exact wordXY_and_mask _ _ _ _

/-- A word whose class bits are those of `c` is of class `c`. -/
theorem class_of_and_mask {w : Word} (c : BitVec 4) (h : w &&& 0xF000 = wordA c 0) : w.toNat / 4096 = c.toNat := by
  rw [← wordA_fieldNNN (fieldC_toNat w).symm, wordA_and_mask] at h
  calc w.toNat / 4096 = (fieldC w).toNat := (fieldC_toNat w).symm
    _ = (wordA (fieldC w) 0).toNat / 4096 := (wordA_toNat_div _ _).symm
    _ = c.toNat := by rw [h, wordA_toNat_div]

/-- A word whose class and selector bits are those of `c` and `n` is of class `c` and selector `n`. -/
theorem class_and_selector_of_and_mask {w : Word} (c n : BitVec 4) (h : w &&& 0xF00F = wordXY c 0 0 n) :
    w.toNat / 4096 = c.toNat ∧ w.toNat % 16 = n.toNat := by
  rw [← wordXY_fieldX_fieldY (fieldC_toNat w).symm (fieldN_toNat w).symm, wordXY_and_mask] at h
  constructor
  · calc w.toNat / 4096 = (fieldC w).toNat := (fieldC_toNat w).symm
      _ = (wordXY (fieldC w) 0 0 (fieldN w)).toNat / 4096 := (wordXY_toNat_div _ _ _ _).symm
      _ = c.toNat := by rw [h, wordXY_toNat_div]
  · calc w.toNat % 16 = (fieldN w).toNat := (fieldN_toNat w).symm
      _ = (wordXY (fieldC w) 0 0 (fieldN w)).toNat % 16 := (wordXY_toNat_mod _ _ _ _).symm
      _ = n.toNat := by rw [h, wordXY_toNat_mod]

/-- A word that a row of the opcode map selects meets the conditions of that row's case of the decoder. -/
theorem exists_decodesTo_of_selected {w : Word} {r : Row} (hr : r ∈ opcodeMap) (h : w &&& r.mask = r.pattern) :
    ∃ i : Instr, DecodesTo w (.instr i) ∧ i.row = r := by
  simp only [opcodeMap, List.mem_cons, List.not_mem_nil, or_false] at hr
  have whole {v : Word} (hw : w &&& 0xFFFF = v) : w.toNat = v.toNat := by
    rw [← hw]
    exact congrArg BitVec.toNat BitVec.and_allOnes.symm
  obtain rfl | rfl | rfl | rfl | rfl | rfl | rfl | rfl | rfl | rfl | rfl | rfl | rfl | rfl | rfl | rfl | rfl | rfl | rfl |
    rfl := hr
  · exact ⟨_, .halt (whole h), rfl⟩
  · exact ⟨_, .ret (whole h), rfl⟩
  · exact ⟨_, .jp (class_of_and_mask 0x1 h), rfl⟩
  · exact ⟨_, .jpV0 (class_of_and_mask 0xB h), rfl⟩
  · exact ⟨_, .call (class_of_and_mask 0x2 h), rfl⟩
  · exact ⟨_, .seImm (class_of_and_mask 0x3 h), rfl⟩
  · exact ⟨_, .sneImm (class_of_and_mask 0x4 h), rfl⟩
  · exact ⟨_, and_imp.mpr .seReg (class_and_selector_of_and_mask 0x5 0x0 h), rfl⟩
  · exact ⟨_, and_imp.mpr .sneReg (class_and_selector_of_and_mask 0x9 0x0 h), rfl⟩
  · exact ⟨_, .ldImm (class_of_and_mask 0x6 h), rfl⟩
  · exact ⟨_, .addImm (class_of_and_mask 0x7 h), rfl⟩
  · exact ⟨_, and_imp.mpr .ldReg (class_and_selector_of_and_mask 0x8 0x0 h), rfl⟩
  · exact ⟨_, and_imp.mpr .or (class_and_selector_of_and_mask 0x8 0x1 h), rfl⟩
  · exact ⟨_, and_imp.mpr .and (class_and_selector_of_and_mask 0x8 0x2 h), rfl⟩
  · exact ⟨_, and_imp.mpr .xor (class_and_selector_of_and_mask 0x8 0x3 h), rfl⟩
  · exact ⟨_, and_imp.mpr .addReg (class_and_selector_of_and_mask 0x8 0x4 h), rfl⟩
  · exact ⟨_, and_imp.mpr .sub (class_and_selector_of_and_mask 0x8 0x5 h), rfl⟩
  · exact ⟨_, and_imp.mpr .shr (class_and_selector_of_and_mask 0x8 0x6 h), rfl⟩
  · exact ⟨_, and_imp.mpr .subn (class_and_selector_of_and_mask 0x8 0x7 h), rfl⟩
  · exact ⟨_, and_imp.mpr .shl (class_and_selector_of_and_mask 0x8 0xE h), rfl⟩

/-- A row of the opcode map selects a word exactly if the decoder answers an instruction of that row (R55). -/
theorem selected_iff {w : Word} {r : Row} (hr : r ∈ opcodeMap) :
    w &&& r.mask = r.pattern ↔ ∃ i : Instr, i.row = r ∧ decodeWord w = .instr i := by
  constructor
  · intro h
    obtain ⟨i, hdec, hrow⟩ := exists_decodesTo_of_selected hr h
    exact ⟨i, hrow, hdec.decodeWord_eq⟩
  · rintro ⟨i, rfl, hdec⟩
    obtain rfl := encode_of_decodeWord hdec
    exact encode_and_mask_row i

/-- Settles O16: a word's row and its case of the decoder ask for the same bits, and every instruction has its row in the
map, so a word of no row is left to the decoder's last case. -/
theorem decoderAcceptsExactlyTheOpcodeMap : Obligations.DecoderAcceptsExactlyTheOpcodeMap := by
  refine fun w => ⟨fun r hr => selected_iff hr, fun hnone => ?_, fun hunknown r hr h => ?_⟩
  · obtain ⟨i, hdec⟩ | hunknown := decodeWord_instr_or_unknown w
    · exact absurd ((selected_iff i.row_mem_opcodeMap).mpr ⟨i, rfl, hdec⟩) (hnone i.row i.row_mem_opcodeMap)
    · exact hunknown
  · obtain ⟨i, -, hdec⟩ := (selected_iff hr).mp h
    cases hdec.symm.trans hunknown

/-! ### The written form (R60) -/

/-- Settles O19: the written operands are the fields, each in its range, and the check reads them back. -/
theorem writtenFormAssemblesBack : Obligations.WrittenFormAssemblesBack := by
  intro i
  cases i with
  | halt | ret => rfl
  | jp nnn | jpV0 nnn | call nnn => exact congrArg (Option.map _) (Laws.addrOperand?_toNat nnn)
  | seImm x kk | sneImm x kk | ldImm x kk | addImm x kk => simp [Instr.written, Written.instr?, regByte?]
  | seReg x y | sneReg x y | ldReg x y | or x y | and x y | xor x y | addReg x y | sub x y | subn x y =>
    simp [Instr.written, Written.instr?, regReg?]
  | shr x | shl x =>
    have hzero : regOperand? 0 = some 0 := rfl
    simp [Instr.written, Written.instr?, regReg?, hzero]

end Sys2Proof

/-! PROOFS. The fetch, the step and what ends a run (R33, R70 to R75, R144, R148). -/

namespace Sys2Proof.Machine

/-! ### The fetch (R33) -/

/-- A fetch inside memory answers the word of the two bytes at `pc`. -/
theorem State.fetch_of_le {s : State} (h : s.pc.toNat ≤ 4094) :
    s.fetch = some (wordOfBytes (s.mem.read s.pc.toNat) (s.mem.read (s.pc.toNat + 1))) :=
  Memory.readWord?_of_le h

/-- A fetch answers nothing exactly outside memory. -/
theorem State.fetch_eq_none_iff {s : State} : s.fetch = none ↔ 4094 < s.pc.toNat := by
  obtain ⟨hpc, hfetch⟩ | ⟨hpc, hfetch⟩ := s.fetch_cases
  · exact iff_of_true hfetch hpc
  · exact iff_of_false (by simp [hfetch]) (by omega)

/-- A fetch that answers a word is inside memory. -/
theorem State.pc_le_of_fetch {s : State} {w : Word} (h : s.fetch = some w) : s.pc.toNat ≤ 4094 := by
  by_contra hpc
  have hnone : s.fetch = none := State.fetch_eq_none_iff.mpr (by omega)
  simp [hnone] at h

/-- The advance past a fetched word does not wrap. -/
theorem State.advancePc_toNat_of_fetch {s : State} {w : Word} (h : s.fetch = some w) :
    s.advancePc.pc.toNat = s.pc.toNat + 2 := by
  have hpc := State.pc_le_of_fetch h
  exact State.advancePc_toNat (by omega)

/-- The fetch depends on memory only through the two bytes at `pc` (R73). -/
theorem State.fetch_withMem {s : State} {m : Memory} (hhi : m.read s.pc.toNat = s.mem.read s.pc.toNat)
    (hlo : m.read (s.pc.toNat + 1) = s.mem.read (s.pc.toNat + 1)) : State.fetch { s with mem := m } = s.fetch := by
  simp only [State.fetch, Memory.readWord?, hhi, hlo]

/-! ### The step by its cases (R71 to R76) -/

/-- A step in a terminal state changes nothing (R72). -/
theorem step_of_terminal {s : State} (h : s.runState ≠ .running) : step s = .next s := by
  unfold step
  cases hr : s.runState with
  | running => exact absurd hr h
  | halted | faulted => rfl

/-- A step whose fetch fails takes that fault (R73). -/
theorem step_of_fetch_none {s : State} (hrun : s.runState = .running) (hfetch : s.fetch = none) :
    step s = .next (s.raise .outOfBounds 0) := by
  simp only [step, hrun, hfetch]

/-- A step that fetches an unknown word takes that fault after the advance (R144). -/
theorem step_of_unknown {s : State} {w u : Word} (hrun : s.runState = .running) (hfetch : s.fetch = some w)
    (hdec : decodeWord w = .unknown u) : step s = .next (s.advancePc.raise .unknownOpcode u) := by
  simp only [step, hrun, hfetch, hdec, execUnknown]

/-- A step that fetches an instruction executes it after the advance (R74 to R76). -/
theorem step_of_instr {s : State} {w : Word} {i : Instr} (hrun : s.runState = .running) (hfetch : s.fetch = some w)
    (hdec : decodeWord w = .instr i) : step s = exec i s.advancePc := by
  simp only [step, hrun, hfetch, hdec]

/-- Settles O5: the two bytes are the fetched word, and the state with `pc` moved past them is the advanced state. -/
theorem stepRunsTheDecodedInstruction : Obligations.StepRunsTheDecodedInstruction := fun _ _ hrun hpc hdec =>
  step_of_instr hrun (State.fetch_of_le hpc) hdec

/-- Settles O7: the step's first case. -/
theorem terminalStepChangesNothing : Obligations.TerminalStepChangesNothing := fun _ => step_of_terminal

/-- Every instruction answers a next state from every state (R76). -/
theorem exec_total (i : Instr) (s : State) : ∃ t, exec i s = .next t :=
  (exec_withMem i s).imp fun _ => And.left

/-- Settles O8: every case of the step answers a state, the executed instruction among them. -/
theorem stepAlwaysAnswersAState : Obligations.StepAlwaysAnswersAState := by
  intro s
  by_cases hrun : s.runState = .running
  · cases hfetch : s.fetch with
    | none => exact ⟨_, step_of_fetch_none hrun hfetch⟩
    | some w =>
      obtain ⟨i, hdec⟩ | hdec := decodeWord_instr_or_unknown w
      · rw [step_of_instr hrun hfetch hdec]
        exact exec_total i s.advancePc
      · exact ⟨_, step_of_unknown hrun hfetch hdec⟩
  · exact ⟨s, step_of_terminal hrun⟩

/-- Settles O12: the fetch sees the same two bytes, and no case after it looks at memory. -/
theorem stepReadsOnlyTheTwoFetchedBytes : Obligations.StepReadsOnlyTheTwoFetchedBytes := by
  intro s t m hhi hlo h
  have hsame := State.fetch_withMem hhi hlo
  obtain ⟨hterm, rfl⟩ | ⟨hrun, hfetch, rfl⟩ | ⟨w, u, hrun, hfetch, hdec, rfl⟩ | ⟨w, i, hrun, hfetch, hdec, hexec⟩ :=
    step_cases h
  · exact step_of_terminal (s := { t with mem := m }) hterm
  · exact step_of_fetch_none (s := { s with mem := m }) hrun (hsame.trans hfetch)
  · exact step_of_unknown (s := { s with mem := m }) hrun (hsame.trans hfetch) hdec
  · exact (step_of_instr (s := { s with mem := m }) hrun (hsame.trans hfetch) hdec).trans (exec_withMem_of_next hexec m)

/-! ### What a fault leaves alone (R148) -/

/-- What two updates both leave alone, the one after the other leaves alone. -/
theorem KeepsData.trans {s t u : State} (h : KeepsData s t) (h' : KeepsData t u) : KeepsData s u where
  regs r := (h'.regs r).trans (h.regs r)
  mem a := (h'.mem a).trans (h.mem a)
  stack i := (h'.stack i).trans (h.stack i)
  sp := h'.sp.trans h.sp

/-- Taking a fault keeps registers, memory, the stack and `sp`. -/
theorem State.raise_keepsData (s : State) (k : FaultKind) (w : Word) : KeepsData s (s.raise k w) where
  regs r := s.raise_reg k w r
  mem a := by rw [s.raise_mem]
  stack i := by rw [s.raise_stack]
  sp := s.raise_sp k w

/-- The advance of `pc` keeps registers, memory, the stack and `sp`. -/
theorem State.advancePc_keepsData (s : State) : KeepsData s s.advancePc where
  regs r := s.advancePc_reg r
  mem a := by rw [s.advancePc_mem]
  stack i := by rw [s.advancePc_stack]
  sp := s.advancePc_sp

/-- A fault taken after the advance keeps registers, memory, the stack and `sp`. -/
theorem State.advancePc_raise_keepsData (s : State) (k : FaultKind) (w : Word) : KeepsData s (s.advancePc.raise k w) :=
  s.advancePc_keepsData.trans (s.advancePc.raise_keepsData k w)

/-- Settles O4: the fetch answers nothing, and the fault is taken from the state before the advance. -/
theorem fetchOutsideMemoryFaults : Obligations.FetchOutsideMemoryFaults := fun s hrun hpc =>
  ⟨_, step_of_fetch_none hrun (State.fetch_eq_none_iff.mpr hpc), rfl, rfl, rfl, s.raise_keepsData _ _⟩

/-- Settles O6: the decoder carries the word it was given, and the fault is taken from the advanced state. -/
theorem unknownWordFaultsWithTheWord : Obligations.UnknownWordFaultsWithTheWord := by
  intro s w u hrun hfetch hdec
  obtain rfl := eq_of_decodeWord_unknown hdec
  exact ⟨rfl, _, step_of_unknown hrun hfetch hdec, rfl, rfl, State.advancePc_toNat_of_fetch hfetch,
    s.advancePc_raise_keepsData _ _⟩

/-- Settles O46: two zero bytes are the word of HALT, which halts the advanced state. -/
theorem unloadedMemoryHalts : Obligations.UnloadedMemoryHalts := by
  intro s hrun hpc hhi hlo
  have hfetch : s.fetch = some 0x0000 := by
    rw [State.fetch_of_le hpc, hhi, hlo]
    rfl
  exact ⟨s.advancePc.halt, step_of_instr hrun hfetch (decodeWord_encode .halt), rfl,
    State.advancePc_toNat_of_fetch hfetch, rfl, s.advancePc_keepsData.trans s.advancePc.halt_keepsData⟩

/-! ### When a step ends the run (R70, R86) -/

/-- All a step can do that takes a running machine to Faulted (R141 to R144). -/
theorem step_faulted_cases {s t : State} (hrun : s.runState = .running) (h : step s = .next t)
    (hfaulted : t.runState = .faulted) :
    (s.fetch = none ∧ t = s.raise .outOfBounds 0) ∨
    ∃ w, s.fetch = some w ∧
      ((decodeWord w = .unknown w ∧ t = s.advancePc.raise .unknownOpcode w) ∨
        (decodeWord w = .instr .ret ∧ s.sp.val = 0 ∧ t = s.advancePc.raise .stackUnderflow 0) ∨
        ∃ nnn, decodeWord w = .instr (.call nnn) ∧ s.sp.val = 16 ∧ t = s.advancePc.raise .stackOverflow 0) := by
  obtain ⟨hterm, -⟩ | ⟨-, hfetch, rfl⟩ | ⟨w, u, -, hfetch, hdec, rfl⟩ | ⟨w, i, -, hfetch, hdec, hexec⟩ := step_cases h
  · exact absurd hrun hterm
  · exact .inl ⟨hfetch, rfl⟩
  · obtain rfl := eq_of_decodeWord_unknown hdec
    exact .inr ⟨u, hfetch, .inl ⟨hdec, rfl⟩⟩
  · refine .inr ⟨w, hfetch, .inr ?_⟩
    obtain ⟨nnn, rfl, hfull, rfl⟩ | ⟨rfl, hempty, rfl⟩ | ⟨-, rfl⟩ | ⟨hsame, -⟩ := exec_runState_cases hexec
    · exact .inr ⟨nnn, hdec, hfull, rfl⟩
    · exact .inl ⟨hdec, hempty, rfl⟩
    · cases hfaulted
    · rw [hsame, s.advancePc_runState, hrun] at hfaulted
      cases hfaulted

/-- From Running a step faults exactly on a fetch outside memory, an unknown word, a RET on an empty stack or a CALL on a
full one. -/
theorem step_faulted_iff {s t : State} (hrun : s.runState = .running) (h : step s = .next t) :
    t.runState = .faulted ↔ (4094 < s.pc.toNat ∨ ∃ w, s.fetch = some w ∧
      (decodeWord w = .unknown w ∨ (decodeWord w = .instr .ret ∧ s.sp.val = 0) ∨
        ∃ nnn, decodeWord w = .instr (.call nnn) ∧ s.sp.val = 16)) := by
  constructor
  · intro hfaulted
    obtain ⟨hfetch, -⟩ | ⟨w, hfetch, ⟨hdec, -⟩ | ⟨hdec, hempty, -⟩ | ⟨nnn, hdec, hfull, -⟩⟩ :=
      step_faulted_cases hrun h hfaulted
    · exact .inl (State.fetch_eq_none_iff.mp hfetch)
    · exact .inr ⟨w, hfetch, .inl hdec⟩
    · exact .inr ⟨w, hfetch, .inr (.inl ⟨hdec, hempty⟩)⟩
    · exact .inr ⟨w, hfetch, .inr (.inr ⟨nnn, hdec, hfull⟩)⟩
  · have of_raise {u : State} {k : FaultKind} {v : Word} (hstep : step s = .next (u.raise k v)) :
        t.runState = .faulted := by
      obtain rfl := Host.Outcome.next.inj (h.symm.trans hstep)
      rfl
    rintro (hpc | ⟨w, hfetch, hdec | ⟨hdec, hempty⟩ | ⟨nnn, hdec, hfull⟩⟩)
    · exact of_raise (step_of_fetch_none hrun (State.fetch_eq_none_iff.mpr hpc))
    · exact of_raise (step_of_unknown hrun hfetch hdec)
    · exact of_raise ((step_of_instr hrun hfetch hdec).trans (exec_ret_of_empty (s := s.advancePc) hempty))
    · exact of_raise ((step_of_instr hrun hfetch hdec).trans (exec_call_of_full (s := s.advancePc) hfull nnn))

/-- From Running a step halts exactly on the word of HALT (R78). -/
theorem step_halted_iff {s t : State} (hrun : s.runState = .running) (h : step s = .next t) :
    t.runState = .halted ↔ s.fetch = some 0x0000 := by
  constructor
  · intro hhalted
    obtain ⟨hterm, -⟩ | ⟨-, -, rfl⟩ | ⟨w, u, -, -, -, rfl⟩ | ⟨w, i, -, hfetch, hdec, hexec⟩ := step_cases h
    · exact absurd hrun hterm
    · cases hhalted
    · cases hhalted
    · obtain ⟨nnn, -, -, rfl⟩ | ⟨-, -, rfl⟩ | ⟨rfl, -⟩ | ⟨hsame, -⟩ := exec_runState_cases hexec
      · cases hhalted
      · cases hhalted
      · rw [hfetch, ← encode_of_decodeWord hdec, encode]
      · rw [hsame, s.advancePc_runState, hrun] at hhalted
        cases hhalted
  · intro hfetch
    have hstep : step s = .next s.advancePc.halt := step_of_instr hrun hfetch (decodeWord_encode .halt)
    obtain rfl := Host.Outcome.next.inj (h.symm.trans hstep)
    rfl

/-- Settles O9: the cases of the step and of the executed instruction, in both directions. -/
theorem whenAStepHaltsOrFaults : Obligations.WhenAStepHaltsOrFaults := fun _ _ hrun h =>
  ⟨step_halted_iff hrun h, step_faulted_iff hrun h⟩

/-- The state of a step that faults: the fetch fault's, taken before the advance, or another fault's, taken after the advance
with the fetched word as its `info`. -/
theorem step_faulted_eq_raise {s t : State} (hrun : s.runState = .running) (h : step s = .next t)
    (hfaulted : t.runState = .faulted) :
    t = s.raise .outOfBounds 0 ∨ ∃ w k, s.fetch = some w ∧ k ≠ .outOfBounds ∧ t = s.advancePc.raise k w := by
  obtain ⟨-, rfl⟩ | ⟨w, hfetch, ⟨-, rfl⟩ | ⟨-, -, rfl⟩ | ⟨-, -, -, rfl⟩⟩ := step_faulted_cases hrun h hfaulted
  · exact .inl rfl
  · exact .inr ⟨w, .unknownOpcode, hfetch, by decide, rfl⟩
  · exact .inr ⟨w, .stackUnderflow, hfetch, by decide, rfl⟩
  · exact .inr ⟨w, .stackOverflow, hfetch, by decide, rfl⟩

/-- Settles O10: a fault is raised from the state the step has at that point, and the record takes the fetched word for
UnknownOpcode only. -/
theorem faultingStepIsPrecise : Obligations.FaultingStepIsPrecise := by
  intro s t hrun h hfaulted
  obtain rfl | ⟨w, k, hfetch, hk, rfl⟩ := step_faulted_eq_raise hrun h hfaulted
  · exact ⟨s.raise_keepsData _ _, fun _ => rfl, fun hkind => absurd rfl hkind, fun _ => rfl, nofun⟩
  · exact ⟨s.advancePc_raise_keepsData k w, fun hkind => absurd hkind hk,
      fun _ => State.advancePc_toNat_of_fetch hfetch, fun hkind => if_neg hkind,
      fun hkind => hfetch.trans (congrArg some (if_pos hkind).symm)⟩

end Sys2Proof.Machine

/-! PROOFS. JP V0, RET and CALL (R90, R92, R93). -/

namespace Sys2Proof.Machine

/-! ### The words -/

/-- The word of an instruction is its encoding's number, since decoding gives the instruction back. -/
theorem WordOf.of_encode {i : Instr} {n : Nat} (hn : (encode i).toNat = n) : WordOf i n :=
  .of_decodeWord_encode hn (decodeWord_encode i)

/-- Settles O23: class B decodes to JP V0, whose jump to the wrapped sum writes `pc` alone. -/
theorem jpV0AddsV0AndWraps : Obligations.JpV0AddsV0AndWraps := fun nnn =>
  ⟨.of_encode (wordA_toNat 0xB nnn), fun s =>
    ⟨s.setPc (offsetOperand s nnn), rfl, offsetOperand_toNat s nnn, s.setPc_keepsBut _⟩⟩

/-! ### RET and CALL away from their faults -/

/-- The state a RET leaves when the stack holds `d + 1` addresses: the entry at `d` in `pc`, and the entry kept (R18, R90). -/
def State.returned (s : State) (d : Fin 16) : State := { s with pc := s.stack[d], sp := d.castSucc }

/-- The state a CALL leaves when the stack holds `d` addresses: the advanced `pc` in the entry at `d` (R93). -/
def State.called (s : State) (d : Fin 16) (nnn : Addr) : State :=
  { s with pc := addrOperand nnn, stack := s.stack.set d.val s.pc d.isLt, sp := d.succ }

/-- RET on a stack that holds an address (R90). -/
theorem exec_ret_of_held {s : State} {d : Fin 16} (hsp : s.sp = d.succ) : exec .ret s = .next (s.returned d) := by
  simp [exec, execRet, State.pop, hsp, State.setPc, State.returned, Fin.castSucc, Fin.castAdd, Fin.castLE]

/-- CALL on a stack with room (R93). -/
theorem exec_call_of_room {s : State} {d : Fin 16} (hsp : s.sp = d.castSucc) (nnn : Addr) :
    exec (.call nnn) s = .next (s.called d nnn) := by
  simp [exec, execCall, State.push, hsp, State.setPc, State.called, Fin.succ]

/-- A RET finds the stack empty or the entry below `sp` (R17). -/
theorem State.sp_empty_or_held (s : State) : s.sp.val = 0 ∨ ∃ d : Fin 16, s.sp = d.succ :=
  (Fin.eq_zero_or_eq_succ s.sp).imp_left (congrArg Fin.val)

/-- A CALL finds the stack full or the entry at `sp` (R17). -/
theorem State.sp_full_or_room (s : State) : s.sp.val = 16 ∨ ∃ d : Fin 16, s.sp = d.castSucc :=
  (Fin.eq_castSucc_or_eq_last s.sp).symm.imp_left (congrArg Fin.val)

/-- The entry a RET pops is live. -/
theorem State.lt_sp_of_eq_succ {s : State} {d : Fin 16} (hsp : s.sp = d.succ) : d.val < s.sp.val := by
  rw [hsp]
  exact Nat.lt_succ_self d.val

/-- An entry that is live after a CALL was live before it, but for the one the CALL wrote. -/
theorem State.lt_sp_of_eq_castSucc {s : State} {d i : Fin 16} (hsp : s.sp = d.castSucc) (hi : i.val < d.val + 1)
    (hne : i ≠ d) : i.val < s.sp.val := by
  rw [hsp]
  exact Nat.lt_of_le_of_ne (Nat.le_of_lt_succ hi) fun hval => hne (Fin.ext hval)

/-- The entry a CALL wrote holds the advanced `pc`. -/
theorem State.called_stack_self (s : State) (d : Fin 16) (nnn : Addr) : (s.called d nnn).stack[d] = s.pc :=
  Vector.getElem_set_self d.isLt

/-- A CALL writes no entry but the one at the old `sp`. -/
theorem State.called_stack_of_ne (s : State) {d i : Fin 16} (nnn : Addr) (h : i ≠ d) :
    (s.called d nnn).stack[i] = s.stack[i] :=
  Vector.getElem_set_ne d.isLt i.isLt fun hval => h (Fin.ext hval.symm)

/-- Settles O21: the popped entry is the one below `sp` and stays, and the fault is taken from the state RET was given. -/
theorem retPopsTheReturnAddress : Obligations.RetPopsTheReturnAddress :=
  ⟨.of_encode rfl, fun s =>
    ⟨fun d hd => ⟨s.returned d, exec_ret_of_held (Fin.ext hd), rfl, rfl, fun _ => rfl, fun _ => rfl, fun _ => rfl, rfl, rfl⟩,
      fun hempty => ⟨_, exec_ret_of_empty hempty, rfl, rfl, rfl, s.raise_keepsData _ _⟩⟩⟩

/-- Settles O24: the one entry written is the one at the old `sp`, and the fault is taken from the state CALL was given. -/
theorem callPushesTheNextAddress : Obligations.CallPushesTheNextAddress := fun nnn =>
  ⟨.of_encode (wordA_toNat 0x2 nnn), fun s =>
    ⟨fun d hd => ⟨s.called d nnn, exec_call_of_room (Fin.ext hd) nnn, addrOperand_toNat nnn, rfl,
        s.called_stack_self d nnn, fun _ hi => s.called_stack_of_ne nnn hi, fun _ => rfl, fun _ => rfl, rfl, rfl⟩,
      fun hfull => ⟨_, exec_call_of_full hfull nnn, rfl, rfl, rfl, s.raise_keepsData _ _⟩⟩⟩

end Sys2Proof.Machine

/-! PROOFS. The register-register operations of class 8 but ADD (R121 to R124, R126 to R129). -/

namespace Sys2Proof.Machine

/-- The word of an instruction of format XY, the bits of its row's pattern first (R52, R55). -/
theorem WordOf.of_wordXY {i : Instr} {c n : BitVec 4} {x y : RegIx} (h : encode i = wordXY c x y n) :
    WordOf i (c.toNat * 4096 + n.toNat + x.val * 256 + y.val * 16) :=
  .of_encode (h ▸ wordXY_toNat_pattern_first c x y n)

/-- Settles O28: each of the four is one write of `V[x]`. -/
theorem copyAndLogicWriteOnlyVx : Obligations.CopyAndLogicWriteOnlyVx := fun _ _ =>
  ⟨.of_wordXY (c := 0x8) (n := 0x0) rfl, .of_wordXY (c := 0x8) (n := 0x1) rfl, .of_wordXY (c := 0x8) (n := 0x2) rfl,
    .of_wordXY (c := 0x8) (n := 0x3) rfl, fun _ =>
    ⟨exec_setReg_effect rfl, exec_setReg_effect rfl, exec_setReg_effect rfl, exec_setReg_effect rfl⟩⟩

/-- A difference of bytes as a number: the difference of the numbers, with 256 borrowed where it needs it (R126). -/
theorem byte_sub_toNat (a b : Byte) :
    (a - b).toNat = if a.toNat ≥ b.toNat then a.toNat - b.toNat else a.toNat + 256 - b.toNat := by
  have ha := a.isLt
  have hb := b.isLt
  rw [BitVec.toNat_sub]
  split <;> omega

/-- Settles O30: each of the two is one write of `V[x]` and one of VF, last, both from the old values. -/
theorem subAndSubnSubtractAndWriteNotBorrow : Obligations.SubAndSubnSubtractAndWriteNotBorrow := by
  refine fun x y => ⟨.of_wordXY (c := 0x8) (n := 0x5) rfl, .of_wordXY (c := 0x8) (n := 0x7) rfl, fun s => ⟨?_, ?_⟩⟩
  · obtain ⟨t, hexec, hreg, hrest⟩ := exec_setRegAndFlag_effect (i := .sub x y) (s := s) rfl
    exact ⟨t, hexec, fun hx => hreg hx ▸ byte_sub_toNat (s.reg x) (s.reg y), hrest⟩
  · obtain ⟨t, hexec, hreg, hrest⟩ := exec_setRegAndFlag_effect (i := .subn x y) (s := s) rfl
    exact ⟨t, hexec, fun hx => hreg hx ▸ byte_sub_toNat (s.reg y) (s.reg x), hrest⟩

/-- The bit a left shift sends out is the operand divided by 128 (R129). -/
theorem shiftedOutLeft_toNat (a : Byte) : (shiftedOutLeft a).toNat = a.toNat / 128 := by
  have ha := a.isLt
  rw [shiftedOutLeft_eq]
  split
  · change 1 = a.toNat / 128
    omega
  · change 0 = a.toNat / 128
    omega

/-- A byte shifted right by one as a number (R127). -/
theorem byte_shiftRight_one_toNat (a : Byte) : (a >>> 1).toNat = a.toNat / 2 := by
  rw [BitVec.toNat_ushiftRight, Nat.shiftRight_eq_div_pow, pow_one]

/-- A byte shifted left by one as a number (R129). -/
theorem byte_shiftLeft_one_toNat (a : Byte) : (a <<< 1).toNat = a.toNat * 2 % 256 := by
  rw [BitVec.toNat_shiftLeft, Nat.shiftLeft_eq, pow_one]

/-- Settles O31: each of the two is one write of `V[x]` and one of VF, last, both from the old `V[x]`. -/
theorem shiftsMoveOneBitAndWriteTheBitOut : Obligations.ShiftsMoveOneBitAndWriteTheBitOut := by
  refine fun x y => ⟨.of_wordXY (c := 0x8) (n := 0x6) rfl, .of_wordXY (c := 0x8) (n := 0xE) rfl, fun s => ⟨?_, ?_⟩⟩
  · obtain ⟨t, hexec, hreg, hflag, hrest⟩ := exec_setRegAndFlag_effect (i := .shr x y) (s := s) rfl
    exact ⟨t, hexec, fun hx => hreg hx ▸ byte_shiftRight_one_toNat (s.reg x),
      hflag ▸ shiftedOutRight_toNat (s.reg x), hrest⟩
  · obtain ⟨t, hexec, hreg, hflag, hrest⟩ := exec_setRegAndFlag_effect (i := .shl x y) (s := s) rfl
    exact ⟨t, hexec, fun hx => hreg hx ▸ byte_shiftLeft_one_toNat (s.reg x),
      hflag ▸ shiftedOutLeft_toNat (s.reg x), hrest⟩

end Sys2Proof.Machine

/-! PROOFS. What an instruction writes and what it reads (R12, R17, R18, R131). -/

namespace Sys2Proof.Machine

/-! ### All an instruction can do -/

/-- All that executing an instruction can do to a state, by the operation of the state it ends in: what `exec_effect` says
of `exec`. -/
inductive Effect (s : State) : Instr → State → Prop where
  | halt : Effect s .halt s.halt
  | jump {i : Instr} {v : Word} (hv : v.toNat < 4096) (hflag : i.writesFlag = false) : Effect s i (s.setPc v)
  | skip {i : Instr} (c : Bool) (hflag : i.writesFlag = false) : Effect s i (s.skipIf c)
  | setReg {i : Instr} {x : RegIx} (v : Byte) (hdest : i.dest? = some x) (hflag : i.writesFlag = false) :
      Effect s i (s.setReg x v)
  | setRegAndFlag {i : Instr} {x : RegIx} {f : Byte} (r : Byte) (hdest : i.dest? = some x)
      (hflag : i.writesFlag = true) (hbit : f = 0 ∨ f = 1) : Effect s i (s.setRegAndFlag x r f)
  | underflow (hempty : s.sp.val = 0) : Effect s .ret (s.raise .stackUnderflow 0)
  | returned {d : Fin 16} (hsp : s.sp = d.succ) : Effect s .ret (s.returned d)
  | overflow {nnn : Addr} (hfull : s.sp.val = 16) : Effect s (.call nnn) (s.raise .stackOverflow 0)
  | called {nnn : Addr} {d : Fin 16} (hsp : s.sp = d.castSucc) : Effect s (.call nnn) (s.called d nnn)

/-- An instruction answers exactly by the cases of `Effect`. -/
theorem exec_effect {i : Instr} {s t : State} (h : exec i s = .next t) : Effect s i t := by
  have ends {u : State} (hexec : exec i s = .next u) (hu : Effect s i u) : Effect s i t := by
    obtain rfl := Host.Outcome.next.inj (h.symm.trans hexec)
    exact hu
  cases i with
  | halt => exact ends rfl .halt
  | ret =>
    obtain hempty | ⟨d, hsp⟩ := s.sp_empty_or_held
    · exact ends (exec_ret_of_empty hempty) (.underflow hempty)
    · exact ends (exec_ret_of_held hsp) (.returned hsp)
  | call nnn =>
    obtain hfull | ⟨d, hsp⟩ := s.sp_full_or_room
    · exact ends (exec_call_of_full hfull nnn) (.overflow hfull)
    · exact ends (exec_call_of_room hsp nnn) (.called hsp)
  | jp nnn => exact ends rfl (.jump (by rw [addrOperand_toNat]; exact nnn.isLt) rfl)
  | jpV0 nnn => exact ends rfl (.jump (by rw [offsetOperand_toNat]; exact Nat.mod_lt _ (by decide)) rfl)
  | seImm | sneImm | seReg | sneReg => exact ends rfl (.skip _ rfl)
  | ldImm | addImm | ldReg | or | and | xor => exact ends rfl (.setReg _ rfl rfl)
  | addReg => exact ends rfl (.setRegAndFlag _ rfl rfl (carryFlag_zero_or_one _ _))
  | sub | subn => exact ends rfl (.setRegAndFlag _ rfl rfl (notBorrowFlag_zero_or_one _ _))
  | shr => exact ends rfl (.setRegAndFlag _ rfl rfl (shiftedOutRight_zero_or_one _))
  | shl => exact ends rfl (.setRegAndFlag _ rfl rfl (shiftedOutLeft_zero_or_one _))

/-! ### What is written (R12, R17) -/

/-- An instruction writes no register but its destination and, if it is one of the five, VF. -/
theorem exec_reg_of_not_written {i : Instr} {s t : State} (h : exec i s = .next t) {r : RegIx}
    (hdest : i.dest? ≠ some r) (hflag : r = 15 → i.writesFlag = false) : t.reg r = s.reg r := by
  cases exec_effect h with
  | halt | jump | underflow | returned | overflow | called => rfl
  | skip c => exact s.skipIf_reg c r
  | setReg v hx => exact s.reg_setReg_of_ne v fun hr => hdest (hr ▸ hx)
  | @setRegAndFlag _ x f v hx hwrites =>
    have hr15 : r ≠ 15 := fun hr => by simp [hflag hr] at hwrites
    have hrx : r ≠ x := fun hr => hdest (hr ▸ hx)
    rw [s.reg_setRegAndFlag, if_neg hr15, if_neg hrx]

/-- The five instructions leave a bit in VF, for every destination (R130). -/
theorem exec_flag_of_writesFlag {i : Instr} {s t : State} (h : exec i s = .next t) (hwrites : i.writesFlag = true) :
    t.reg 15 = 0 ∨ t.reg 15 = 1 := by
  cases exec_effect h with
  | halt | underflow | returned | overflow | called => cases hwrites
  | jump _ hflag | skip _ hflag | setReg _ _ hflag => cases hflag.symm.trans hwrites
  | setRegAndFlag v _ _ hbit => rwa [s.reg_setRegAndFlag_flag]

/-- Settles O34: the only writes of registers are `setReg` at the destination and `setRegAndFlag`, whose flag is a bit. -/
theorem onlyNamedRegistersChange : Obligations.OnlyNamedRegistersChange := fun _ _ _ h =>
  ⟨fun _ => exec_reg_of_not_written h, exec_flag_of_writesFlag h⟩

/-- An instruction other than RET and CALL leaves `sp` and the stack alone. -/
theorem exec_stack_of_not_ret_call {i : Instr} {s t : State} (h : exec i s = .next t) (hret : i ≠ .ret)
    (hcall : ∀ nnn, i ≠ .call nnn) : t.sp = s.sp ∧ t.stack = s.stack := by
  cases exec_effect h with
  | halt | jump | setReg | setRegAndFlag => exact ⟨rfl, rfl⟩
  | skip c => exact ⟨s.skipIf_sp c, s.skipIf_stack c⟩
  | underflow | returned => exact absurd rfl hret
  | overflow | called => exact absurd rfl (hcall _)

/-- An instruction that changes `sp` is RET or CALL. -/
theorem ret_or_call_of_sp_ne {i : Instr} {s t : State} (h : exec i s = .next t) (hsp : t.sp ≠ s.sp) :
    i = .ret ∨ ∃ nnn, i = .call nnn := by
  by_contra hother
  obtain ⟨hret, hcall⟩ := not_or.mp hother
  exact hsp (exec_stack_of_not_ret_call h hret (not_exists.mp hcall)).1

/-- An instruction that changes a stack entry is a CALL, and the entry is the one at the old `sp`. -/
theorem call_of_stack_ne {i : Instr} {s t : State} (h : exec i s = .next t) {j : Fin 16}
    (hj : t.stack[j] ≠ s.stack[j]) : (∃ nnn, i = .call nnn) ∧ j.val = s.sp.val := by
  cases exec_effect h with
  | halt | jump | setReg | setRegAndFlag | underflow | returned | overflow => exact absurd rfl hj
  | skip c => exact absurd (by rw [s.skipIf_stack]) hj
  | @called nnn d hsp =>
    obtain rfl : j = d := by
      by_contra hne
      exact hj (s.called_stack_of_ne nnn hne)
    exact ⟨⟨nnn, rfl⟩, by rw [hsp, Fin.val_castSucc]⟩

/-- Settles O36: of all an instruction can do, only the two successful stack operations touch `sp` or the stack. -/
theorem onlyCallAndRetTouchTheStack : Obligations.OnlyCallAndRetTouchTheStack := fun _ _ _ h =>
  ⟨ret_or_call_of_sp_ne h, fun _ => call_of_stack_ne h⟩

/-! ### What is read (R12, R58, R92) -/

/-- Changing a register that an instruction does not name as a source changes none of its sources. -/
theorem State.reg_setReg_of_not_source (s : State) {i : Instr} {r : RegIx} (hr : r ∉ i.sources) (v : Byte) :
    ∀ q ∈ i.sources, (s.setReg r v).reg q = s.reg q := fun _ hq =>
  s.reg_setReg_of_ne v (ne_of_mem_of_not_mem hq hr)

/-- An instruction without a destination, after the change of a register it does not name as a source, does the same beside
that change. -/
theorem exec_setReg_of_no_dest {i : Instr} {s t : State} (h : exec i s = .next t) (hdest : i.dest? = none) {r : RegIx}
    (hr : r ∉ i.sources) (v : Byte) : exec i (s.setReg r v) = .next (t.setReg r v) := by
  have keeps := s.reg_setReg_of_not_source hr v
  have skips (c : Bool) : (s.setReg r v).skipIf c = (s.skipIf c).setReg r v := by cases c <;> rfl
  cases i with
  | ldImm | addImm | ldReg | or | and | xor | addReg | sub | shr | subn | shl => cases hdest
  | ret =>
    obtain hempty | ⟨d, hsp⟩ := s.sp_empty_or_held
    · obtain rfl := Host.Outcome.next.inj (h.symm.trans (exec_ret_of_empty hempty))
      exact exec_ret_of_empty hempty
    · obtain rfl := Host.Outcome.next.inj (h.symm.trans (exec_ret_of_held hsp))
      exact exec_ret_of_held hsp
  | call nnn =>
    obtain hfull | ⟨d, hsp⟩ := s.sp_full_or_room
    · obtain rfl := Host.Outcome.next.inj (h.symm.trans (exec_call_of_full hfull nnn))
      exact exec_call_of_full (s := s.setReg r v) hfull nnn
    · obtain rfl := Host.Outcome.next.inj (h.symm.trans (exec_call_of_room hsp nnn))
      exact exec_call_of_room (s := s.setReg r v) hsp nnn
  | halt | jp =>
    obtain rfl := Host.Outcome.next.inj h
    rfl
  | jpV0 nnn =>
    obtain rfl := Host.Outcome.next.inj h
    have htarget : offsetOperand (s.setReg r v) nnn = offsetOperand s nnn := by
      simp only [offsetOperand, keeps 0 (List.mem_singleton_self 0)]
    exact congrArg (fun p => Host.Outcome.next ((s.setReg r v).setPc p)) htarget
  | seImm | sneImm | seReg | sneReg =>
    obtain rfl := Host.Outcome.next.inj h
    simp only [Instr.sources, List.forall_mem_cons] at keeps
    simp [exec, execSeImm, execSneImm, execSeReg, execSneReg, keeps, skips]

/-- An instruction that writes its destination and no flag writes a value that depends on the registers it names as sources
only. -/
theorem exec_setReg_of_dest {i : Instr} {x : RegIx} (hdest : i.dest? = some x) (hflag : i.writesFlag = false)
    (s : State) {r : RegIx} (hr : r ∉ i.sources) (v : Byte) :
    ∃ a, exec i s = .next (s.setReg x a) ∧ exec i (s.setReg r v) = .next ((s.setReg r v).setReg x a) := by
  have keeps := s.reg_setReg_of_not_source hr v
  cases i with
  | halt | ret | jp | jpV0 | call | seImm | sneImm | seReg | sneReg => cases hdest
  | addReg | sub | shr | subn | shl => cases hflag
  | ldImm x kk =>
    obtain rfl := Option.some.inj hdest
    exact ⟨kk, rfl, rfl⟩
  | addImm | ldReg | or | and | xor =>
    obtain rfl := Option.some.inj hdest
    refine ⟨_, rfl, ?_⟩
    simp only [Instr.sources, List.forall_mem_cons] at keeps
    simp [exec, execAddImm, execLdReg, execOr, execAnd, execXor, keeps]

/-- An instruction that writes its destination and VF writes values that depend on the registers it names as sources only. -/
theorem exec_setReg_of_writesFlag {i : Instr} (hflag : i.writesFlag = true) (s : State) {r : RegIx} (hr : r ∉ i.sources)
    (v : Byte) : ∃ x a f, i.dest? = some x ∧ exec i s = .next (s.setRegAndFlag x a f) ∧
      exec i (s.setReg r v) = .next ((s.setReg r v).setRegAndFlag x a f) := by
  have keeps := s.reg_setReg_of_not_source hr v
  cases i with
  | halt | ret | jp | jpV0 | call | seImm | sneImm | seReg | sneReg => cases hflag
  | ldImm | addImm | ldReg | or | and | xor => cases hflag
  | addReg | sub | shr | subn | shl =>
    refine ⟨_, _, _, rfl, rfl, ?_⟩
    simp only [Instr.sources, List.forall_mem_cons] at keeps
    simp [exec, execAddReg, execSub, execShr, execSubn, execShl, keeps]

/-- Writing `V[x]` hides what an earlier write did, but to another register. -/
theorem State.reg_setReg_setReg (s : State) {x r q : RegIx} (a v : Byte) (hq : q ≠ r ∨ r = x) :
    ((s.setReg r v).setReg x a).reg q = (s.setReg x a).reg q := by
  rw [State.reg_setReg, State.reg_setReg s x]
  split
  · rfl
  · next hx => exact s.reg_setReg_of_ne v (hq.elim id fun hr => hr ▸ hx)

/-- Writing a result and its flag hides what an earlier write did, but to a register other than the two. -/
theorem State.reg_setReg_setRegAndFlag (s : State) {x r q : RegIx} (a f v : Byte) (hq : q ≠ r ∨ r = x ∨ r = 15) :
    ((s.setReg r v).setRegAndFlag x a f).reg q = (s.setRegAndFlag x a f).reg q := by
  rw [State.reg_setRegAndFlag, State.reg_setRegAndFlag]
  split
  · rfl
  · next hflag =>
    split
    · rfl
    · next hx =>
      obtain hq | rfl | rfl := hq
      · exact s.reg_setReg_of_ne v hq
      · exact s.reg_setReg_of_ne v hx
      · exact s.reg_setReg_of_ne v hflag

/-- Settles O35: what is not a source does not enter the written values, so the two runs differ by the changed register
alone, and not there either once it is written. -/
theorem onlyNamedRegistersAreRead : Obligations.OnlyNamedRegistersAreRead := by
  intro i s t t' r v hr h h'
  cases hflag : i.writesFlag with
  | true =>
    obtain ⟨x, a, f, hdest, hexec, hexec'⟩ := exec_setReg_of_writesFlag hflag s hr v
    obtain rfl := Host.Outcome.next.inj (h.symm.trans hexec)
    obtain rfl := Host.Outcome.next.inj (h'.symm.trans hexec')
    refine ⟨fun q hq => s.reg_setReg_setRegAndFlag a f v ?_, rfl, rfl, rfl, rfl, rfl, rfl⟩
    exact hq.imp_right (Or.imp (fun hx => Option.some.inj (hx.symm.trans hdest)) And.left)
  | false =>
    cases hdest : i.dest? with
    | some x =>
      obtain ⟨a, hexec, hexec'⟩ := exec_setReg_of_dest hdest hflag s hr v
      obtain rfl := Host.Outcome.next.inj (h.symm.trans hexec)
      obtain rfl := Host.Outcome.next.inj (h'.symm.trans hexec')
      refine ⟨fun q hq => s.reg_setReg_setReg a v ?_, rfl, rfl, rfl, rfl, rfl, rfl⟩
      simpa [eq_comm] using hq
    | none =>
      obtain rfl := Host.Outcome.next.inj (h'.symm.trans (exec_setReg_of_no_dest h hdest hr v))
      refine ⟨fun q hq => t.reg_setReg_of_ne v ?_, rfl, rfl, rfl, rfl, rfl, rfl⟩
      simpa using hq

/-! ### Stale stack entries (R18) -/

/-- An instruction other than RET and CALL does not look at the stack. -/
theorem exec_withStack {i : Instr} {s t : State} (h : exec i s = .next t) (hret : i ≠ .ret) (hcall : ∀ nnn, i ≠ .call nnn)
    (st : Vector Word 16) : exec i { s with stack := st } = .next { t with stack := st } := by
  have skips (c : Bool) : State.skipIf { s with stack := st } c = { s.skipIf c with stack := st } := by cases c <;> rfl
  cases i with
  | ret => exact absurd rfl hret
  | call nnn => exact absurd rfl (hcall nnn)
  | seImm | sneImm | seReg | sneReg =>
    obtain rfl := Host.Outcome.next.inj h
    exact congrArg _ (skips _)
  | halt | jp | jpV0 | ldImm | addImm | ldReg | or | and | xor | addReg | sub | shr | subn | shl =>
    obtain rfl := Host.Outcome.next.inj h
    rfl

/-- A state that differs in stale entries only is the state with another stack. -/
theorem SameButStale.eq_withStack {s s' : State} (h : SameButStale s s') : s' = { s with stack := s'.stack } := by
  obtain ⟨V, mem, pc, stack, sp, runState, fault⟩ := s'
  obtain ⟨rfl, rfl, rfl, rfl, rfl, rfl, -⟩ := h
  rfl

/-- With another stack that agrees on the live entries, a state differs in stale entries only. -/
theorem SameButStale.withStack {s : State} {st : Vector Word 16}
    (hlive : ∀ i : Fin 16, i.val < s.sp.val → st[i] = s.stack[i]) : SameButStale s { s with stack := st } :=
  ⟨rfl, rfl, rfl, rfl, rfl, rfl, hlive⟩

/-- RET reads the entry below `sp`, which is live, and leaves the live entries below it. -/
theorem SameButStale.returned {s : State} {st : Vector Word 16} {d : Fin 16}
    (hlive : ∀ i : Fin 16, i.val < s.sp.val → st[i] = s.stack[i]) (hsp : s.sp = d.succ) :
    SameButStale (s.returned d) (State.returned { s with stack := st } d) where
  V := rfl
  mem := rfl
  pc := hlive d (State.lt_sp_of_eq_succ hsp)
  sp := rfl
  runState := rfl
  fault := rfl
  live i hi := hlive i (hi.trans (State.lt_sp_of_eq_succ hsp))

/-- CALL makes the entry at the old `sp` live, and writes it. -/
theorem SameButStale.called {s : State} {st : Vector Word 16} {d : Fin 16}
    (hlive : ∀ i : Fin 16, i.val < s.sp.val → st[i] = s.stack[i]) (hsp : s.sp = d.castSucc) (nnn : Addr) :
    SameButStale (s.called d nnn) (State.called { s with stack := st } d nnn) where
  V := rfl
  mem := rfl
  pc := rfl
  sp := rfl
  runState := rfl
  fault := rfl
  live i hi := by
    by_cases hid : i = d
    · subst hid
      rw [State.called_stack_self, State.called_stack_self]
    · rw [State.called_stack_of_ne _ nnn hid, State.called_stack_of_ne _ nnn hid]
      exact hlive i (State.lt_sp_of_eq_castSucc hsp hi hid)

/-- An instruction takes states that differ in stale entries only to such states. -/
theorem exec_sameButStale {i : Instr} {s t t' : State} {st : Vector Word 16}
    (hlive : ∀ i : Fin 16, i.val < s.sp.val → st[i] = s.stack[i]) (h : exec i s = .next t)
    (h' : exec i { s with stack := st } = .next t') : SameButStale t t' := by
  have ends {u u' : State} (hu : exec i s = .next u) (hu' : exec i { s with stack := st } = .next u')
      (hsame : SameButStale u u') : SameButStale t t' := by
    obtain rfl := Host.Outcome.next.inj (h.symm.trans hu)
    obtain rfl := Host.Outcome.next.inj (h'.symm.trans hu')
    exact hsame
  by_cases hret : i = .ret
  · subst hret
    obtain hempty | ⟨d, hsp⟩ := s.sp_empty_or_held
    · exact ends (exec_ret_of_empty hempty) (exec_ret_of_empty (s := { s with stack := st }) hempty) (.withStack hlive)
    · exact ends (exec_ret_of_held hsp) (exec_ret_of_held (s := { s with stack := st }) hsp) (.returned hlive hsp)
  by_cases hcall : ∃ nnn, i = .call nnn
  · obtain ⟨nnn, rfl⟩ := hcall
    obtain hfull | ⟨d, hsp⟩ := s.sp_full_or_room
    · exact ends (exec_call_of_full hfull nnn) (exec_call_of_full (s := { s with stack := st }) hfull nnn)
        (.withStack hlive)
    · exact ends (exec_call_of_room hsp nnn) (exec_call_of_room (s := { s with stack := st }) hsp nnn)
        (.called hlive hsp nnn)
  obtain ⟨hsp, hstack⟩ := exec_stack_of_not_ret_call h hret (not_exists.mp hcall)
  refine ends h (exec_withStack h hret (not_exists.mp hcall) st) (.withStack ?_)
  rwa [hsp, hstack]

/-- Settles O42: the fetch does not look at the stack, RET reads a live entry, and CALL writes the entry it makes live. -/
theorem staleStackEntriesAreUnobservable : Obligations.StaleStackEntriesAreUnobservable := by
  intro s s' t t' hsame h h'
  have hlive := hsame.live
  rw [hsame.eq_withStack] at h'
  generalize s'.stack = st at h' hlive
  have ends {u' : State} (hu' : step { s with stack := st } = .next u') (hu : SameButStale t u') : SameButStale t t' := by
    obtain rfl := Host.Outcome.next.inj (h'.symm.trans hu')
    exact hu
  obtain ⟨hterm, rfl⟩ | ⟨hrun, hfetch, rfl⟩ | ⟨w, u, hrun, hfetch, hdec, rfl⟩ | ⟨w, i, hrun, hfetch, hdec, hexec⟩ :=
    step_cases h
  · exact ends (step_of_terminal (s := { t with stack := st }) hterm) (.withStack hlive)
  · exact ends (step_of_fetch_none (s := { s with stack := st }) hrun hfetch) (.withStack hlive)
  · exact ends (step_of_unknown (s := { s with stack := st }) hrun hfetch hdec) (.withStack hlive)
  · have hexec' := (step_of_instr (s := { s with stack := st }) hrun hfetch hdec).symm.trans h'
    exact exec_sameButStale (s := s.advancePc) hlive hexec hexec'

end Sys2Proof.Machine

/-! PROOFS. Runs: STEP iterated, RUN_TO_HALT and the terminal states (R72, R83, R91, R149). -/

namespace Sys2Proof.Machine

/-! ### STEP iterated -/

/-- What every step keeps, any number of steps keeps. -/
theorem Steps.preserves {P : State → Prop} (hstep : ∀ s t, P s → step s = .next t → P t) {n : Nat} {s t : State}
    (hs : P s) (h : Steps n s t) : P t := by
  induction n generalizing s with
  | zero => exact h ▸ hs
  | succ n ih =>
    obtain ⟨u, hu, hrest⟩ := h
    exact ih (hstep s u hs hu) hrest

/-! ### RUN_TO_HALT (R83) -/

/-- A state is terminal exactly when it is not running. -/
theorem State.isRunning_eq_false_iff {s : State} : s.isRunning = false ↔ s.terminal := by
  simp [State.isRunning, State.terminal]

/-- A state is running exactly when its run state is. -/
theorem State.isRunning_eq_true_iff {s : State} : s.isRunning = true ↔ s.runState = .running :=
  beq_iff_eq

/-- RUN_TO_HALT answers a terminal state at once, with any fuel. -/
theorem State.runToHalt_of_terminal {s : State} (h : s.terminal) (n : Nat) : s.runToHalt n = some s := by
  have hr := State.isRunning_eq_false_iff.mpr h
  cases n <;> simp [State.runToHalt, hr]

/-- RUN_TO_HALT on a running machine is a step and the rest of the run. -/
theorem State.runToHalt_succ {s u : State} (hrun : s.runState = .running) (hstep : step s = .next u) (n : Nat) :
    s.runToHalt (n + 1) = u.runToHalt n := by
  simp only [State.runToHalt, State.isRunning_eq_true_iff.mpr hrun, if_true, State.afterStep_eq_some.mpr hstep,
    Option.bind_some]

/-- What RUN_TO_HALT answers is terminal and reached by at most as many steps as the fuel. -/
theorem State.runToHalt_sound {n : Nat} {s t : State} (h : s.runToHalt n = some t) :
    t.terminal ∧ ∃ k ≤ n, Steps k s t := by
  induction n generalizing s with
  | zero =>
    obtain ⟨hr, rfl⟩ | ⟨-, _, _, hfuel, -⟩ := State.runToHalt_cases h
    · exact ⟨State.isRunning_eq_false_iff.mp hr, 0, le_rfl, rfl⟩
    · cases hfuel
  | succ n ih =>
    obtain ⟨hr, rfl⟩ | ⟨-, _, u, hfuel, hstep, hrest⟩ := State.runToHalt_cases h
    · exact ⟨State.isRunning_eq_false_iff.mp hr, 0, Nat.zero_le _, rfl⟩
    · obtain rfl := Nat.succ.inj hfuel
      obtain ⟨hterm, k, hk, hsteps⟩ := ih hrest
      exact ⟨hterm, k + 1, Nat.succ_le_succ hk, u, hstep, hsteps⟩

/-- RUN_TO_HALT answers the same with more fuel. -/
theorem State.runToHalt_mono {n m : Nat} (hnm : n ≤ m) {s t : State} (h : s.runToHalt n = some t) :
    s.runToHalt m = some t := by
  induction n generalizing s m with
  | zero =>
    obtain ⟨hr, rfl⟩ | ⟨-, _, _, hfuel, -⟩ := State.runToHalt_cases h
    · exact State.runToHalt_of_terminal (State.isRunning_eq_false_iff.mp hr) m
    · cases hfuel
  | succ n ih =>
    obtain ⟨hr, rfl⟩ | ⟨hr, _, u, hfuel, hstep, hrest⟩ := State.runToHalt_cases h
    · exact State.runToHalt_of_terminal (State.isRunning_eq_false_iff.mp hr) m
    · obtain rfl := Nat.succ.inj hfuel
      obtain ⟨m, rfl⟩ := Nat.exists_eq_add_one_of_ne_zero (Nat.ne_of_gt (Nat.lt_of_lt_of_le n.succ_pos hnm))
      rw [State.runToHalt_succ (State.isRunning_eq_true_iff.mp hr) hstep]
      exact ih (Nat.le_of_succ_le_succ hnm) hrest

/-- RUN_TO_HALT answers a terminal state that as many steps as the fuel reach. -/
theorem State.runToHalt_of_steps {k : Nat} {s t : State} (hsteps : Steps k s t) (hterm : t.terminal) :
    s.runToHalt k = some t := by
  induction k generalizing s with
  | zero =>
    obtain rfl : t = s := hsteps
    exact State.runToHalt_of_terminal hterm 0
  | succ k ih =>
    obtain ⟨u, hstep, hrest⟩ := hsteps
    by_cases hrun : s.runState = .running
    · rw [State.runToHalt_succ hrun hstep]
      exact ih hrest
    · obtain rfl := Host.Outcome.next.inj (hstep.symm.trans (step_of_terminal hrun))
      exact State.runToHalt_mono k.le_succ (ih hrest)

/-- Settles O48: by induction on the fuel in one direction and on the number of steps in the other. -/
theorem runToHaltIsIteratedStep : Obligations.RunToHaltIsIteratedStep := fun _ _ =>
  ⟨fun _ h => ⟨(State.runToHalt_sound h).1, (State.runToHalt_sound h).2, fun _ hm => State.runToHalt_mono hm h⟩,
    fun _ => State.runToHalt_of_steps⟩

/-! ### An endless loop (R91) -/

/-- A jump to its own address steps to the state it started from. -/
theorem step_of_jump_to_itself {s : State} {w : Word} {nnn : Addr} (hrun : s.runState = .running)
    (hfetch : s.fetch = some w) (hdec : decodeWord w = .instr (.jp nnn)) (hself : nnn.toNat = s.pc.toNat) :
    step s = .next s := by
  have hpc : addrOperand nnn = s.pc := BitVec.eq_of_toNat_eq ((addrOperand_toNat nnn).trans hself)
  rw [step_of_instr hrun hfetch hdec, exec_jp, hpc]
  rfl

/-- A state that steps to itself is where any number of steps leads. -/
theorem Steps.of_step_self {s : State} (hstep : step s = .next s) (n : Nat) : Steps n s s := by
  induction n with
  | zero => rfl
  | succ n ih => exact ⟨s, hstep, ih⟩

/-- RUN_TO_HALT answers nothing for a running machine that steps to itself. -/
theorem State.runToHalt_of_step_self {s : State} (hrun : s.runState = .running) (hstep : step s = .next s) (n : Nat) :
    s.runToHalt n = none := by
  induction n with
  | zero => simp [State.runToHalt, State.isRunning_eq_true_iff.mpr hrun]
  | succ n ih => rw [State.runToHalt_succ hrun hstep, ih]

/-- Settles O49: the jump undoes the advance, so the machine steps to the state it is in. -/
theorem jumpToItselfNeverEnds : Obligations.JumpToItselfNeverEnds := by
  intro s w nnn hrun hfetch hdec hself n
  have hstep := step_of_jump_to_itself hrun hfetch hdec hself
  exact ⟨.of_step_self hstep n, State.runToHalt_of_step_self hrun hstep n⟩

/-! ### Terminal states (R72, R149) -/

/-- From a terminal state no transaction but RESET does anything but write memory (D12, D13). -/
theorem Transaction.takes_of_terminal {tr : Transaction} {s t : State} (hterm : s.terminal) (h : tr.takes s t)
    (hreset : tr ≠ .reset) : ∃ m, t = { s with mem := m } := by
  cases tr with
  | reset => exact absurd rfl hreset
  | load base bytes =>
    obtain rfl : t = (s.load base bytes).2 := h
    obtain ⟨-, hload⟩ | ⟨-, hrun, -⟩ | ⟨-, -, hload⟩ := s.load_cases base bytes
    · exact ⟨_, congrArg Prod.snd hload⟩
    · exact absurd hrun hterm
    · exact ⟨s.mem, congrArg Prod.snd hload⟩
  | step => exact ⟨s.mem, Host.Outcome.next.inj (Eq.trans (Eq.symm h) (step_of_terminal hterm))⟩
  | runToHalt =>
    obtain ⟨n, hrun⟩ := h
    exact ⟨s.mem, Option.some.inj (hrun.symm.trans (State.runToHalt_of_terminal hterm n))⟩
  | read => exact ⟨s.mem, h⟩

/-- Settles O50: LOAD writes memory only, a step and a run do nothing, and READ never does. -/
theorem terminalStateLeftOnlyByReset : Obligations.TerminalStateLeftOnlyByReset := by
  intro tr s t hterm h hreset
  obtain ⟨m, rfl⟩ := Transaction.takes_of_terminal hterm h hreset
  exact ⟨rfl, rfl, rfl, rfl, rfl, rfl⟩

end Sys2Proof.Machine

/-! PROOFS. Where `pc` is after a step (R15). -/

namespace Sys2Proof.Machine

/-! ### The rows of RET and CALL -/

theorem pcAfter_ret_of_empty {s : State} (hempty : s.sp.val = 0) : pcAfter .ret s = s.pc.toNat + 2 :=
  dif_neg (by omega)

theorem pcAfter_ret_of_held {s : State} {d : Fin 16} (hsp : s.sp = d.succ) : pcAfter .ret s = (s.stack[d]).toNat := by
  simp [pcAfter, hsp]

theorem pcAfter_call_of_full {s : State} (hfull : s.sp.val = 16) (nnn : Addr) :
    pcAfter (.call nnn) s = s.pc.toNat + 2 :=
  if_neg (by omega)

theorem pcAfter_call_of_room {s : State} {d : Fin 16} (hsp : s.sp = d.castSucc) (nnn : Addr) :
    pcAfter (.call nnn) s = nnn.toNat :=
  if_pos (by rw [hsp]; exact d.isLt)

/-! ### The table and the machine -/

/-- A skip executed after the advance leaves `pc` 4 past the instruction when its condition holds, else 2 past it (R104). -/
theorem State.advancePc_skipIf_toNat {s : State} {w : Word} (hfetch : s.fetch = some w) {c : Bool} {p : Prop} [Decidable p]
    (hcond : c = true ↔ p) :
    (s.advancePc.skipIf c).pc.toNat = if p then s.pc.toNat + 4 else s.pc.toNat + 2 := by
  have hpc := State.pc_le_of_fetch hfetch
  have hnext := State.advancePc_toNat_of_fetch hfetch
  cases c with
  | false =>
    rw [if_neg fun hp => Bool.false_ne_true (hcond.mpr hp)]
    exact hnext
  | true =>
    rw [if_pos (hcond.mp rfl)]
    calc s.advancePc.advancePc.pc.toNat = s.advancePc.pc.toNat + 2 := State.advancePc_toNat (by omega)
      _ = s.pc.toNat + 4 := by omega

/-- The instruction executed after the advance leaves `pc` where the table of R15 has it. -/
theorem exec_advancePc_pc {s t : State} {w : Word} {i : Instr} (hfetch : s.fetch = some w)
    (h : exec i s.advancePc = .next t) : t.pc.toNat = pcAfter i s := by
  have hnext := State.advancePc_toNat_of_fetch hfetch
  have ends {u : State} {n : Nat} (hexec : exec i s.advancePc = .next u) (hu : u.pc.toNat = n) : t.pc.toNat = n := by
    obtain rfl := Host.Outcome.next.inj (h.symm.trans hexec)
    exact hu
  cases i with
  | halt | ldImm | addImm | ldReg | or | and | xor | addReg | sub | shr | subn | shl => exact ends rfl hnext
  | jp nnn => exact ends rfl (addrOperand_toNat nnn)
  | jpV0 nnn => exact ends rfl (offsetOperand_toNat s.advancePc nnn)
  | seImm | seReg => exact ends rfl (State.advancePc_skipIf_toNat hfetch beq_iff_eq)
  | sneImm | sneReg => exact ends rfl (State.advancePc_skipIf_toNat hfetch bne_iff_ne)
  | ret =>
    obtain hempty | ⟨d, hsp⟩ := s.sp_empty_or_held
    · exact ends (exec_ret_of_empty (s := s.advancePc) hempty) (hnext.trans (pcAfter_ret_of_empty hempty).symm)
    · exact ends (exec_ret_of_held (s := s.advancePc) hsp) (pcAfter_ret_of_held hsp).symm
  | call nnn =>
    obtain hfull | ⟨d, hsp⟩ := s.sp_full_or_room
    · exact ends (exec_call_of_full (s := s.advancePc) hfull nnn) (hnext.trans (pcAfter_call_of_full hfull nnn).symm)
    · exact ends (exec_call_of_room (s := s.advancePc) hsp nnn)
        ((addrOperand_toNat nnn).trans (pcAfter_call_of_room hsp nnn).symm)

/-- Settles O11: each row of the table, with the advance that does not wrap. -/
theorem pcAfterAStep : Obligations.PcAfterAStep := fun _ _ _ _ hrun hfetch hdec h =>
  exec_advancePc_pc hfetch ((step_of_instr hrun hfetch hdec).symm.trans h)

/-- Where the table of R15 can lead: 4 past the instruction by a taken skip only, to the next address, or inside R24's range
of a jump or of a live return address. -/
theorem pcAfter_cases (i : Instr) {s : State} (hlive : ∀ j : Fin 16, j.val < s.sp.val → s.stack[j].toNat ≤ 4096) :
    (takenSkip i s ∧ pcAfter i s = s.pc.toNat + 4) ∨ pcAfter i s = s.pc.toNat + 2 ∨ pcAfter i s ≤ 4096 := by
  have of_cond {p : Prop} [Decidable p] {q : Prop} {n : Nat} (hn : n = if p then s.pc.toNat + 4 else s.pc.toNat + 2)
      (hpq : p → q) : (q ∧ n = s.pc.toNat + 4) ∨ n = s.pc.toNat + 2 ∨ n ≤ 4096 := by
    by_cases hp : p
    · exact .inl ⟨hpq hp, hn.trans (if_pos hp)⟩
    · exact .inr (.inl (hn.trans (if_neg hp)))
  cases i with
  | halt | ldImm | addImm | ldReg | or | and | xor | addReg | sub | shr | subn | shl => exact .inr (.inl rfl)
  | jp nnn => exact .inr (.inr nnn.isLt.le)
  | jpV0 nnn => exact .inr (.inr (Nat.mod_lt _ (by decide)).le)
  | seImm x kk => exact of_cond rfl fun hp => .inl ⟨x, kk, rfl, hp⟩
  | sneImm x kk => exact of_cond rfl fun hp => .inr (.inl ⟨x, kk, rfl, hp⟩)
  | seReg x y => exact of_cond rfl fun hp => .inr (.inr (.inl ⟨x, y, rfl, hp⟩))
  | sneReg x y => exact of_cond rfl fun hp => .inr (.inr (.inr ⟨x, y, rfl, hp⟩))
  | ret =>
    obtain hempty | ⟨d, hsp⟩ := s.sp_empty_or_held
    · exact .inr (.inl (pcAfter_ret_of_empty hempty))
    · rw [pcAfter_ret_of_held hsp]
      exact .inr (.inr (hlive d (State.lt_sp_of_eq_succ hsp)))
  | call nnn =>
    obtain hfull | ⟨d, hsp⟩ := s.sp_full_or_room
    · exact .inr (.inl (pcAfter_call_of_full hfull nnn))
    · rw [pcAfter_call_of_room hsp]
      exact .inr (.inr nnn.isLt.le)

end Sys2Proof.Machine

/-! PROOFS. The invariant (R20, R24, R144, R145). -/

namespace Sys2Proof.Machine

/-- Settles O2: reset's memory is empty, its record is that of no fault, and no stack entry is live. -/
theorem resetMeetsTheInvariant : Obligations.ResetMeetsTheInvariant where
  memWf := rfl
  faultIff := by decide
  faultWord _ := rfl
  faultUnknown := nofun
  neverUnimplemented := nofun
  pcRange := Nat.zero_le _
  liveRange _ hi := absurd hi (Nat.not_lt_zero _)

/-! ### Each update of the state keeps the invariant -/

namespace State.Inv

variable {s : State}

/-- A jump inside R24's range keeps the invariant: it says nothing else of `pc`. -/
theorem setPc (h : s.Inv) {v : Word} (hv : v.toNat ≤ 4098) : (s.setPc v).Inv :=
  { h with pcRange := hv }

/-- The invariant says nothing of the registers. -/
theorem setReg (h : s.Inv) (x : RegIx) (v : Byte) : (s.setReg x v).Inv :=
  { h with }

theorem setRegAndFlag (h : s.Inv) (x : RegIx) (r f : Byte) : (s.setRegAndFlag x r f).Inv :=
  (h.setReg x r).setReg _ f

/-- The advance from an address in memory, or just past it, does not wrap and stays in R24's range. -/
theorem advancePc (h : s.Inv) (hpc : s.pc.toNat ≤ 4096) : s.advancePc.Inv :=
  h.setPc (by rw [← State.advancePc_pc, State.advancePc_toNat hpc]; omega)

theorem skipIf (h : s.Inv) (hpc : s.pc.toNat ≤ 4096) (c : Bool) : (s.skipIf c).Inv := by
  cases c with
  | false => exact h
  | true => exact h.advancePc hpc

theorem withMem (h : s.Inv) {m : Memory} (hm : m.wf = true) : State.Inv { s with mem := m } :=
  { h with memWf := hm }

/-- Halting a running machine leaves the record of no fault. -/
theorem halt (h : s.Inv) (hrun : s.runState = .running) : s.halt.Inv :=
  { h with faultIff := iff_of_true (h.faultIff.mpr (by simp [hrun])) nofun }

/-- Taking a fault leaves a consistent record, if the word of UnknownOpcode is one the decoder does not recognise. -/
theorem raise (h : s.Inv) {k : FaultKind} {w : Word} (hfault : k ≠ .noFault) (hraised : k ≠ .unimplemented)
    (hword : k = .unknownOpcode → decodeWord w = .unknown w) : (s.raise k w).Inv :=
  { h with
    faultIff := iff_of_false hfault fun hne => hne rfl
    faultWord := fun hk => if_neg hk
    faultUnknown := fun hk => by
      obtain rfl : k = .unknownOpcode := hk
      exact hword rfl
    neverUnimplemented := hraised }

/-- RET goes to a live entry and leaves the entries below it live. -/
theorem returned (h : s.Inv) {d : Fin 16} (hsp : s.sp = d.succ) : (s.returned d).Inv :=
  { h with
    pcRange := by
      have hd : s.stack[d].toNat ≤ 4096 := h.liveRange d (State.lt_sp_of_eq_succ hsp)
      exact hd.trans (by decide)
    liveRange := fun i hi => h.liveRange i (hi.trans (State.lt_sp_of_eq_succ hsp)) }

/-- CALL makes an advanced `pc` a live entry. -/
theorem called (h : s.Inv) {d : Fin 16} (hsp : s.sp = d.castSucc) (hpc : s.pc.toNat ≤ 4096) (nnn : Addr) :
    (s.called d nnn).Inv :=
  { h with
    pcRange := by
      have htarget : (s.called d nnn).pc.toNat = nnn.toNat := addrOperand_toNat nnn
      have := nnn.isLt
      omega
    liveRange := fun i hi => by
      by_cases hid : i = d
      · subst hid
        rwa [State.called_stack_self]
      · rw [State.called_stack_of_ne _ nnn hid]
        exact h.liveRange i (State.lt_sp_of_eq_castSucc hsp hi hid) }

end State.Inv

/-! ### Steps and transactions keep the invariant -/

/-- Every instruction keeps the invariant from a running state whose `pc` is an advanced one. -/
theorem exec_inv {i : Instr} {s t : State} (hs : s.Inv) (hrun : s.runState = .running) (hpc : s.pc.toNat ≤ 4096)
    (h : exec i s = .next t) : t.Inv := by
  cases exec_effect h with
  | halt => exact hs.halt hrun
  | jump hv => exact hs.setPc (by omega)
  | skip c => exact hs.skipIf hpc c
  | setReg v => exact hs.setReg _ v
  | setRegAndFlag r => exact hs.setRegAndFlag _ r _
  | underflow | overflow => exact hs.raise nofun nofun nofun
  | returned hsp => exact hs.returned hsp
  | called hsp => exact hs.called hsp hpc _

/-- A step keeps the invariant. -/
theorem step_inv {s t : State} (hs : s.Inv) (h : step s = .next t) : t.Inv := by
  obtain ⟨-, rfl⟩ | ⟨-, -, rfl⟩ | ⟨w, u, -, hfetch, hdec, rfl⟩ | ⟨w, i, hrun, hfetch, -, hexec⟩ := step_cases h
  · exact hs
  · exact hs.raise nofun nofun nofun
  · have hpc := State.pc_le_of_fetch hfetch
    obtain rfl := eq_of_decodeWord_unknown hdec
    exact (hs.advancePc (by omega)).raise nofun nofun fun _ => hdec
  · have hpc := State.pc_le_of_fetch hfetch
    have hnext := State.advancePc_toNat_of_fetch hfetch
    exact exec_inv (hs.advancePc (by omega)) hrun (by omega) hexec

/-- Settles O37: the advance of a fetch inside memory stays at 4096 or below, and from there each thing an instruction or a
fault can do keeps the invariant. -/
theorem invariantKeptByEveryStep : Obligations.InvariantKeptByEveryStep := fun _ _ => step_inv

/-- A LOAD keeps the invariant. -/
theorem State.Inv.load {s : State} (hs : s.Inv) (base : Nat) (bytes : List Byte) : (s.load base bytes).2.Inv := by
  obtain ⟨hfits, hload⟩ | ⟨-, -, hload⟩ | ⟨-, -, hload⟩ := s.load_cases base bytes <;> rw [hload]
  · exact hs.withMem (Memory.writeBytes_wf hs.memWf hfits)
  · exact hs.raise nofun nofun nofun
  · exact hs

/-- Every transaction keeps the invariant. -/
theorem Transaction.takes_inv {tr : Transaction} {s t : State} (hs : s.Inv) (h : tr.takes s t) : t.Inv := by
  cases tr with
  | reset => exact Eq.mpr (congrArg State.Inv h) resetMeetsTheInvariant
  | load base bytes => exact Eq.mpr (congrArg State.Inv h) (hs.load base bytes)
  | step => exact step_inv hs h
  | runToHalt =>
    obtain ⟨n, hrun⟩ := h
    obtain ⟨-, k, -, hsteps⟩ := State.runToHalt_sound hrun
    exact Steps.preserves (fun _ _ => step_inv) hs hsteps
  | read => exact Eq.mpr (congrArg State.Inv h) hs

/-- Settles O38: reset meets the invariant and every transaction keeps it. -/
theorem reachableStatesMeetTheInvariant : Obligations.ReachableStatesMeetTheInvariant := by
  intro s h
  induction h with
  | reset => exact resetMeetsTheInvariant
  | after tr _ htakes ih => exact tr.takes_inv ih htakes

/-- Settles O39: in the table of R15 only a taken skip goes more than 2 past the instruction and above 4096, and a fetch
inside memory is at 4094 or below. -/
theorem highPcComesOnlyFromATakenSkip : Obligations.HighPcComesOnlyFromATakenSkip := by
  intro s t hs hrun hpc h hhigh
  obtain ⟨hterm, -⟩ | ⟨-, -, rfl⟩ | ⟨w, u, -, hfetch, -, rfl⟩ | ⟨w, i, -, hfetch, hdec, hexec⟩ := step_cases h
  · exact absurd hrun hterm
  · rw [State.raise_pc] at hhigh
    omega
  · have hle := State.pc_le_of_fetch hfetch
    rw [State.raise_pc, State.advancePc_toNat_of_fetch hfetch] at hhigh
    omega
  · have hle := State.pc_le_of_fetch hfetch
    have hafter := exec_advancePc_pc hfetch hexec
    obtain ⟨hskip, hfour⟩ | htwo | hlow := pcAfter_cases i hs.liveRange
    · exact ⟨by omega, by omega, w, i, hfetch, hdec, hskip⟩
    · omega
    · omega

end Sys2Proof.Machine

/-! PROOFS. Calls and returns (R94). -/

namespace Sys2Proof.Machine

/-- A step that runs a RET on a stack that holds an address. -/
theorem step_of_ret {s : State} {w : Word} {d : Fin 16} (hrun : s.runState = .running) (hfetch : s.fetch = some w)
    (hdec : decodeWord w = .instr .ret) (hsp : s.sp = d.succ) : step s = .next (s.advancePc.returned d) :=
  (step_of_instr hrun hfetch hdec).trans (exec_ret_of_held (s := s.advancePc) hsp)

/-- A step that runs a CALL on a stack with room. -/
theorem step_of_call {s : State} {w : Word} {nnn : Addr} {d : Fin 16} (hrun : s.runState = .running)
    (hfetch : s.fetch = some w) (hdec : decodeWord w = .instr (.call nnn)) (hsp : s.sp = d.castSucc) :
    step s = .next (s.advancePc.called d nnn) :=
  (step_of_instr hrun hfetch hdec).trans (exec_call_of_room (s := s.advancePc) hsp nnn)

/-- The stack pointer of a stack with room is the number of the entry a CALL writes. -/
theorem State.exists_sp_eq_castSucc {s : State} (h : s.sp.val < 16) : ∃ d : Fin 16, s.sp = d.castSucc :=
  s.sp_full_or_room.resolve_left (Nat.ne_of_lt h)

/-- Settles O40: the RET pops the entry that the CALL wrote, the address after the CALL. -/
theorem callThenRetReturns : Obligations.CallThenRetReturns := by
  intro s w nnn hrun hfetch hdec hroom hret
  obtain ⟨d, hsp⟩ := State.exists_sp_eq_castSucc hroom
  have hfetchRet : (s.advancePc.called d nnn).fetch = some 0x00EE := by
    have htarget : (s.advancePc.called d nnn).pc.toNat = nnn.toNat := addrOperand_toNat nnn
    rw [State.fetch, htarget]
    exact hret
  refine ⟨(s.advancePc.called d nnn).advancePc.returned d,
    ⟨_, step_of_call hrun hfetch hdec hsp, _, step_of_ret hrun hfetchRet (decodeWord_encode .ret) rfl, rfl⟩, ?_, hsp.symm,
    hrun⟩
  calc ((s.advancePc.called d nnn).stack[d]).toNat = s.advancePc.pc.toNat := by rw [State.called_stack_self]
    _ = s.pc.toNat + 2 := State.advancePc_toNat_of_fetch hfetch

/-- A step writes no stack entry below `sp`. -/
theorem step_stack_of_lt {s t : State} (h : step s = .next t) {j : Fin 16} (hj : j.val < s.sp.val) :
    t.stack[j] = s.stack[j] := by
  obtain ⟨-, rfl⟩ | ⟨-, -, rfl⟩ | ⟨_, _, -, -, -, rfl⟩ | ⟨_, i, -, -, -, hexec⟩ := step_cases h
  · rfl
  · rfl
  · rfl
  · by_contra hne
    exact Nat.ne_of_lt hj (call_of_stack_ne hexec hne).2

/-- Steps through which `sp` stays above an entry leave that entry alone. -/
theorem Steps.stack_of_lt {n : Nat} {c u : State} {d : Fin 16} (h : Steps n c u)
    (habove : ∀ k ≤ n, ∀ v, Steps k c v → d.val < v.sp.val) : u.stack[d] = c.stack[d] := by
  induction n generalizing c with
  | zero =>
    obtain rfl : u = c := h
    rfl
  | succ n ih =>
    obtain ⟨x, hstep, hrest⟩ := h
    calc u.stack[d] = x.stack[d] := ih hrest fun k hk v hv => habove (k + 1) (Nat.succ_le_succ hk) v ⟨x, hstep, hv⟩
      _ = c.stack[d] := step_stack_of_lt hstep (habove 0 (Nat.zero_le _) c rfl)

/-- Settles O41: the entry the CALL wrote is below `sp` all the while, so no step writes it before the RET pops it. -/
theorem balancedCallReturnsToItsCaller : Obligations.BalancedCallReturnsToItsCaller := by
  intro s c u w w' nnn n hrun hfetch hdec hroom hcall hsteps habove hdepth hrun' hfetch' hdec'
  obtain ⟨d, hsp⟩ := State.exists_sp_eq_castSucc hroom
  obtain rfl := Host.Outcome.next.inj (hcall.symm.trans (step_of_call hrun hfetch hdec hsp))
  rw [hsp] at habove hdepth
  refine ⟨u.advancePc.returned d, step_of_ret hrun' hfetch' hdec' (Fin.ext hdepth), ?_, hsp.symm⟩
  calc (u.stack[d]).toNat = ((s.advancePc.called d nnn).stack[d]).toNat := by rw [hsteps.stack_of_lt habove]
    _ = s.advancePc.pc.toNat := by rw [State.called_stack_self]
    _ = s.pc.toNat + 2 := State.advancePc_toNat_of_fetch hfetch

end Sys2Proof.Machine

/-! PROOFS. Reset and the host's LOAD and READ (R22, R42, R81, R84, R170). -/

namespace Sys2Proof.Machine

/-- Settles O1: every item of reset is a constant, and empty memory reads as zero everywhere. -/
theorem resetIsAllZeroAndRunning : Obligations.ResetIsAllZeroAndRunning :=
  ⟨fun i => Vector.getElem_replicate i.isLt, fun _ => rfl, fun i => Vector.getElem_replicate i.isLt, rfl, rfl, rfl, rfl⟩

/-! ### LOAD and READ -/

/-- A LOAD that fits writes its bytes. -/
theorem State.load_of_fits (s : State) {base : Nat} {bytes : List Byte} (hfits : base + bytes.length ≤ 4096) :
    s.load base bytes = (.success, { s with mem := s.mem.writeBytes base bytes }) :=
  if_neg (Nat.not_lt.mpr hfits)

/-- A LOAD that does not fit faults a running machine and does nothing to a terminal one. -/
theorem State.load_of_leaves (s : State) {base : Nat} {bytes : List Byte} (hleaves : 4096 < base + bytes.length) :
    s.load base bytes = (.failure .outOfBounds, if s.runState = .running then s.raise .outOfBounds 0 else s) :=
  if_pos hleaves

/-- Settles O43: a LOAD that fits is a write of bytes to memory alone, and one that does not is a fault or nothing. -/
theorem loadWritesAllOrNothing : Obligations.LoadWritesAllOrNothing := by
  refine fun s base bytes hwf => ⟨fun hfits => ?_, fun hleaves => ?_⟩
  · rw [s.load_of_fits hfits]
    exact ⟨rfl, Memory.read_writeBytes_inside hwf hfits, fun _ => Memory.read_writeBytes_outside hwf hfits, rfl⟩
  · rw [s.load_of_leaves hleaves]
    by_cases hrun : s.runState = .running
    · rw [if_pos hrun]
      exact ⟨rfl, s.raise_keepsData _ _, rfl, fun _ => ⟨rfl, rfl⟩, fun hterm => absurd hrun hterm⟩
    · rw [if_neg hrun]
      exact ⟨rfl, ⟨fun _ => rfl, fun _ => rfl, fun _ => rfl, rfl⟩, rfl, fun h => absurd h hrun, fun _ => rfl⟩

/-- A range just written reads back as the bytes written. -/
theorem Memory.readBytes_writeBytes {m : Memory} {base : Nat} {bytes : List Byte} (hwf : m.wf = true)
    (hfits : base + bytes.length ≤ 4096) : (m.writeBytes base bytes).readBytes base bytes.length = bytes := by
  apply List.ext_getElem (Memory.length_readBytes _ _ _)
  intro k hk hk'
  rw [Memory.getElem_readBytes, Memory.read_writeBytes_inside hwf hfits k hk']

/-- READ of a range inside memory answers its bytes. -/
theorem State.readPort_memory_of_fits (s : State) {base len : Nat} (hfits : base + len ≤ 4096) :
    s.readPort (.memory base len) = some (.memory (s.mem.readBytes base len)) :=
  if_pos hfits

/-- Settles O44: the range is inside memory, and reading a range just written gives the bytes. -/
theorem loadedBytesReadBack : Obligations.LoadedBytesReadBack := by
  intro s base bytes hwf hfits
  rw [s.load_of_fits hfits, State.readPort_memory_of_fits _ hfits, Memory.readBytes_writeBytes hwf hfits]

/-- Settles O47: each request names the item answered, and the range's bound is tested before any byte is read. -/
theorem readAnswersOrRefuses : Obligations.ReadAnswersOrRefuses := fun s =>
  ⟨fun _ => rfl, rfl, rfl, rfl, fun base len =>
    ⟨fun hfits => ⟨s.mem.readBytes base len, s.readPort_memory_of_fits hfits, Memory.length_readBytes _ _ _,
        Memory.getElem_readBytes _ _ _⟩,
      fun hleaves => if_neg (Nat.not_le.mpr hleaves)⟩⟩

/-! ### A word written at `pc` is the next one fetched (R42) -/

/-- In canonical memory, a word written at `pc`, high byte first, is the one the next fetch answers. -/
theorem State.fetch_writeBytes_word {s : State} (hwf : s.mem.wf = true) (hpc : s.pc.toNat ≤ 4094) (w : Word) :
    State.fetch { s with mem := s.mem.writeBytes s.pc.toNat [hiByte w, loByte w] } = some w := by
  have hfits : s.pc.toNat + [hiByte w, loByte w].length ≤ 4096 := Nat.add_le_add_right hpc 2
  have hhi := Memory.read_writeBytes_inside hwf hfits 0 (by decide : 0 < 2)
  have hlo := Memory.read_writeBytes_inside hwf hfits 1 (by decide : 1 < 2)
  have hword := wordOfBytes_hiByte_loByte w
  calc State.fetch { s with mem := s.mem.writeBytes s.pc.toNat [hiByte w, loByte w] }
    _ = some (wordOfBytes (Memory.read _ (s.pc.toNat + 0)) (Memory.read _ (s.pc.toNat + 1))) := State.fetch_of_le hpc
    _ = some w := by rw [hhi, hlo]; exact congrArg some hword

/-- Settles O45: the LOAD fits, the next fetch answers the word loaded, and decoding it gives the instruction. -/
theorem nextStepRunsTheLoadedInstruction : Obligations.NextStepRunsTheLoadedInstruction := by
  intro s i hwf hrun hpc
  have hfits : s.pc.toNat + (encodeBytes i).length ≤ 4096 := Nat.add_le_add_right hpc 2
  rw [s.load_of_fits hfits]
  exact step_of_instr hrun (State.fetch_writeBytes_word hwf hpc (encode i)) (decodeWord_encode i)

/-- The word of the opcode table that decodes to an instruction is one the decoder answers that instruction for. -/
theorem decodeWord_of_decodeTableWord {nbits w : Nat} {i : Instr} (h : decodeTableWord nbits w = some i) :
    decodeWord (BitVec.ofNat 16 (w % 2 ^ nbits)) = .instr i := by
  simp only [decodeTableWord, decodeBytes, wordOfBytes_hiByte_loByte] at h
  generalize decodeWord (BitVec.ofNat 16 (w % 2 ^ nbits)) = op at h ⊢
  cases op with
  | instr j => exact congrArg Op.instr (Option.some.inj h)
  | unknown u => cases h

/-- A state made ready to fetch has `pc` inside memory. -/
theorem State.readyToFetch_pc_le (s : State) : s.readyToFetch.pc.toNat ≤ 4094 := by
  unfold State.readyToFetch
  split
  · assumption
  · exact Nat.zero_le _

/-- Settles O51: the placed word is written at a `pc` inside memory of a running state, and making a state ready to fetch
changes nothing where it is ready already. -/
theorem placedWordIsTheNextInstruction : Obligations.PlacedWordIsTheNextInstruction := by
  intro s w i hwf hdec
  have hfetch : (s.withFetchWord 16 w).fetch = some (BitVec.ofNat 16 (w % 2 ^ 16)) :=
    State.fetch_writeBytes_word (s := s.readyToFetch) hwf s.readyToFetch_pc_le _
  refine ⟨step_of_instr rfl hfetch (decodeWord_of_decodeTableWord hdec), rfl, rfl, rfl, fun hrun hpc => ⟨if_pos hpc, ?_⟩⟩
  have hnotFaulted : s.runState ≠ .faulted := by simp [hrun]
  exact if_neg hnotFaulted

end Sys2Proof.Machine
